-- ==== Sys2Proof/Word.lean ====
section
/-! DEFINITION. The block's word types: an input byte, a 16-bit pattern, a character string. -/

namespace Sys2Proof

/-- One byte of the input image, bits 7 (most significant) down to 0 (rule R8). -/
abbrev Byte := BitVec 8

/-- A 16-bit pattern assembled from two bytes (rule R9). -/
abbrev Word := BitVec 16

/-- A character string of the output stream, first character first (rules R11, R18; log entry 14). -/
abbrev Text := List Char

end Sys2Proof
end

