-- ==== Sys2Proof/Config.lean ====
section
/-! DEFINITION. The parameters of the block that rule R7 fixes. `CURSOR_BITS` is left open there and the
model's cursor is unbounded (decision D2, log entry 6); the spec leaves no value open, so no constant
here is a free value. -/

namespace Sys2Proof.Config

/-- `MAX_LEN` of rule R7: the longest instruction, in bytes. -/
def maxLength : Nat := 6

/-- `WINDOW` of rule R7: how many input bytes the decode function may examine from the cursor. -/
def window : Nat := 6

/-- `CHARSET` of rule R7: every character the block can write. -/
def charset : Text :=
  ['a', 'b', 'c', 'd', 'e', 'f', 'g', 'h', 'i', 'j', 'k', 'l', 'm', 'n', 'o', 'p', 'q', 'r', 's', 't', 'u', 'v', 'w', 'x',
   'y', 'z', '0', '1', '2', '3', '4', '5', '6', '7', '8', '9', ' ', ',', ';', '[', ']', '+', '-', '\n']

end Sys2Proof.Config
end

