-- ==== Sys2Proof/Syntax.lean ====
section
/-! DEFINITION. The instructions as data: one constructor of `Instr` per row of the opcode table, with every
field of the row's encoding. A value keeps the form it was encoded in (which `mod`, which immediate
width), so that no bit of an encoding is lost (log entry 7). -/

namespace Sys2Proof

/-- A 3-bit register index or `r_m` selector (rules R48, R49). -/
abbrev RegIdx := BitVec 3

/-- A displacement or immediate field as it stands in the stream: one byte, or two bytes low byte first
(rules R44, R62, R63). -/
inductive StreamField where
  | byte (b : Byte)
  | word (v : Word)
deriving DecidableEq, Repr

/-- What `mod`, `r_m` and the displacement bytes encode (rules R50, R73 to R75). -/
inductive RegMem where
  /-- `mod = 11`: register-direct (rule R73). -/
  | reg (index : RegIdx)
  /-- `mod = 00, r_m = 110`: the 16-bit direct address (rule R74). -/
  | direct (addr : Word)
  /-- Indexed with displacement (rule R75): no displacement field is `mod = 00`, a byte is `mod = 01`, a
  word is `mod = 10`. -/
  | indexed (r_m : RegIdx) (disp : Option StreamField)
deriving DecidableEq, Repr

/-- The instructions: eleven rows of the opcode table and its fallback row. `d` is the direction flag, `w`
the word flag, `s` the sign-extend flag (rule R12). -/
inductive Instr where
  /-- MOV r/m, reg and MOV reg, r/m, format RMR (rule R88). -/
  | movRmReg (d w : Bool) (reg : RegIdx) (rm : RegMem)
  /-- MOV r/m, imm, format RMI_MOV (rule R89). -/
  | movRmImm (w : Bool) (rm : RegMem) (imm : StreamField)
  /-- MOV reg, imm, format RI (rule R90). -/
  | movRegImm (w : Bool) (reg : RegIdx) (imm : StreamField)
  /-- MOV acc, mem, format MA with `b0[1] = 0` (rule R91). -/
  | movAccMem (w : Bool) (addr : Word)
  /-- MOV mem, acc, format MA with `b0[1] = 1` (rule R92). -/
  | movMemAcc (w : Bool) (addr : Word)
  /-- ADD r/m, reg and ADD reg, r/m, format RMR (rule R93). -/
  | addRmReg (d w : Bool) (reg : RegIdx) (rm : RegMem)
  /-- SUB r/m, reg and SUB reg, r/m, format RMR (rule R94). -/
  | subRmReg (d w : Bool) (reg : RegIdx) (rm : RegMem)
  /-- CMP r/m, reg and CMP reg, r/m, format RMR (rule R95). -/
  | cmpRmReg (d w : Bool) (reg : RegIdx) (rm : RegMem)
  /-- ADD r/m, imm, format RMI_ARITH with `b1[5:3] = 000` (rule R96). -/
  | addRmImm (s w : Bool) (rm : RegMem) (imm : StreamField)
  /-- SUB r/m, imm, format RMI_ARITH with `b1[5:3] = 101` (rule R97). -/
  | subRmImm (s w : Bool) (rm : RegMem) (imm : StreamField)
  /-- CMP r/m, imm, format RMI_ARITH with `b1[5:3] = 111` (rule R98). -/
  | cmpRmImm (s w : Bool) (rm : RegMem) (imm : StreamField)
  /-- The fallback row, format U (rule R110). `examined` is the byte after `b0` when it had to be looked at,
  that is for an `RMI_*` leading byte whose `reg` sub-field is unmapped (rule R57); that byte is not part
  of the instruction. -/
  | unrecognized (b0 : Byte) (examined : Option Byte)
deriving DecidableEq, Repr

/-- Whether a field is two bytes wide. -/
def StreamField.isWord : StreamField → Bool
  | .byte _ => false
  | .word _ => true

/-- Whether the operand is register-direct, that is `mod = 11`. -/
def RegMem.isReg : RegMem → Bool
  | .reg _ => true
  | .direct _ => false
  | .indexed _ _ => false

end Sys2Proof
end

