-- ==== Sys2Proof/Machine/Flags.lean ====
section
/-! DEFINITION. The flags of the block. It has no status flags (rule R22); what the spec calls flags are the
encoding bits of the instruction being decoded, read here, and the word-data flag computed from them. -/

namespace Sys2Proof.Machine

/-- `d = b0[1]` in formats RMR and MA (rule R46). -/
def directionFlag (b0 : Byte) : Bool := b0.getLsbD 1

/-- `w = b0[0]` in formats RMR, MA, RMI_MOV and RMI_ARITH (rule R46). -/
def wordFlag (b0 : Byte) : Bool := b0.getLsbD 0

/-- `s = b0[1]` in format RMI_ARITH (rule R47). -/
def signExtendFlag (b0 : Byte) : Bool := b0.getLsbD 1

/-- `w = b0[3]` in format RI (rule R48). -/
def regImmWordFlag (b0 : Byte) : Bool := b0.getLsbD 3

/-- The word-data flag of format RMI_ARITH: a full 16-bit immediate exactly when `s = 0` and `w = 1`
(rule R51). In formats RI and RMI_MOV the word-data flag is `w` itself. -/
def wordData (s w : Bool) : Bool := !s && w

end Sys2Proof.Machine
end

