-- ==== Sys2Proof/Machine/Classifier.lean ====
section
/-! DEFINITION. The OpcodeClassifier: the pattern table on the leading byte and the mnemonic selection by the
`reg` sub-field (rules R53 to R57). -/

namespace Sys2Proof.Machine

/-- The rows of rule R53. -/
inductive Family where
  | movRmImm
  | movRmReg
  | addRmReg
  | subRmReg
  | cmpRmReg
  | arithImm
  | movAccumulator
  | movRegImm
  | unrecognized
deriving DecidableEq, Repr

/-- One pattern on the leading byte: `b0` matches when `b0 AND mask = value`. -/
structure Pattern where
  mask : Byte
  value : Byte
  family : Family
deriving DecidableEq, Repr

/-- The eight patterns in the order of rule R53, longest first. -/
def patterns : List Pattern :=
  [ ⟨0xFE#8, 0xC6#8, .movRmImm⟩,
    ⟨0xFC#8, 0x88#8, .movRmReg⟩,
    ⟨0xFC#8, 0x00#8, .addRmReg⟩,
    ⟨0xFC#8, 0x28#8, .subRmReg⟩,
    ⟨0xFC#8, 0x38#8, .cmpRmReg⟩,
    ⟨0xFC#8, 0x80#8, .arithImm⟩,
    ⟨0xFC#8, 0xA0#8, .movAccumulator⟩,
    ⟨0xF0#8, 0xB0#8, .movRegImm⟩ ]

/-- Whether a leading byte matches a pattern (rule R53). -/
def Pattern.accepts (p : Pattern) (b0 : Byte) : Bool := b0 &&& p.mask == p.value

/-- The classifier: the first pattern that matches, or unrecognized (rule R53, row 9). -/
def classify (b0 : Byte) : Family :=
  match patterns.find? (fun p => p.accepts b0) with
  | some p => p.family
  | none => .unrecognized

/-- Format RMI_MOV: `b1[5:3] = 000` selects mov, every other value is unmapped (rule R55). -/
def movImmMapped (reg : RegIdx) : Bool := reg == 0#3

/-- What the `reg` sub-field of format RMI_ARITH selects. -/
inductive ArithOp where
  | add
  | sub
  | cmp
deriving DecidableEq, Repr

/-- Format RMI_ARITH: 000 selects add, 101 sub, 111 cmp, and the other five values are unmapped (rule R56). -/
def arithOp (reg : RegIdx) : Option ArithOp :=
  if reg = 0#3 then some .add
  else if reg = 5#3 then some .sub
  else if reg = 7#3 then some .cmp
  else none

/-- Whether a leading byte's family has a `b1` whose `reg` sub-field holds an unmapped value: the second way
to be unrecognized (rules R57, R121). -/
def unmappedReg (b0 : Byte) (reg : RegIdx) : Bool :=
  match classify b0 with
  | .movRmImm => !movImmMapped reg
  | .arithImm => (arithOp reg).isNone
  | .movRmReg => false
  | .addRmReg => false
  | .subRmReg => false
  | .cmpRmReg => false
  | .movAccumulator => false
  | .movRegImm => false
  | .unrecognized => false

end Sys2Proof.Machine
end

