-- ==== Sys2Proof/WellFormed.lean ====
section
/-! DEFINITION. Which terms of `Instr` stand for an encoding: three checks, on the operand, on the width of the
immediate, and on the fallback row. -/

namespace Sys2Proof

open Sys2Proof.Machine

/-- Check 1. `mod = 00` with `r_m = 110` is the direct address, so no encoding is `bp` without a displacement
field (rule R74). -/
def RegMem.wf : RegMem → Bool
  | .reg _ => true
  | .direct _ => true
  | .indexed r_m disp => !(r_m == 6#3 && disp.isNone)

/-- Whether a term of `Instr` is the decoding of some bytes. Check 2: the immediate is as wide as the
word-data flag says (rule R51). Check 3: an unrecognized leading byte matches no pattern and nothing
further was examined, or its `reg` sub-field was examined and is unmapped (rules R57, R121). -/
def Instr.wf : Instr → Bool
  | .movRmReg _ _ _ rm => rm.wf
  | .movRmImm w rm imm => rm.wf && imm.isWord == w
  | .movRegImm w _ imm => imm.isWord == w
  | .movAccMem _ _ => true
  | .movMemAcc _ _ => true
  | .addRmReg _ _ _ rm => rm.wf
  | .subRmReg _ _ _ rm => rm.wf
  | .cmpRmReg _ _ _ rm => rm.wf
  | .addRmImm s w rm imm => rm.wf && imm.isWord == wordData s w
  | .subRmImm s w rm imm => rm.wf && imm.isWord == wordData s w
  | .cmpRmImm s w rm imm => rm.wf && imm.isWord == wordData s w
  | .unrecognized b0 none => classify b0 == .unrecognized
  | .unrecognized b0 (some b1) => unmappedReg b0 (b1.extractLsb' 3 3)

end Sys2Proof
end

