-- ==== Sys2Proof/Decode.lean ====
section
/-! DEFINITION. The decoder and the encoder. The decoder is the document's forward-only reader (ByteSource,
rules R29 to R31) over the bytes from the cursor, the AddressingResolver's reads (rules R73 to R75), the
ImmediateReader's (rule R77) and the classifier's dispatch (rule R108). The encoder is written from the
same encoding tables (rules R45 to R49). -/

namespace Sys2Proof

open Sys2Proof.Machine

/-! ### Fields of bytes -/

/-- `mod = b1[7:6]` (rule R49). -/
def modField (b1 : Byte) : BitVec 2 := b1.extractLsb' 6 2

/-- `reg = b1[5:3]` (rule R49). -/
def regField (b1 : Byte) : RegIdx := b1.extractLsb' 3 3

/-- `r_m = b1[2:0]` (rule R49). -/
def rmField (b1 : Byte) : RegIdx := b1.extractLsb' 0 3

/-- `reg = b0[2:0]` of format RI (rule R48). -/
def regImmField (b0 : Byte) : RegIdx := b0.extractLsb' 0 3

/-- A 16-bit field, low byte first (rule R32). -/
def wordOfBytes (lo hi : Byte) : Word := hi ++ lo

/-- Bits 7:0 of a 16-bit field, stored first (rule R32). -/
def lowByte (v : Word) : Byte := v.extractLsb' 0 8

/-- Bits 15:8 of a 16-bit field, stored second (rule R32). -/
def highByte (v : Word) : Byte := v.extractLsb' 8 8

/-! ### ByteSource -/

/-- `next_byte` (rule R29): one byte and the rest, or nothing at the end of the stream. -/
def nextByte : List Byte → Option (Byte × List Byte)
  | [] => none
  | b :: rest => some (b, rest)

/-- A raw 16-bit read, low byte first, all or nothing (rules R31, R32, R64). -/
def nextWord : List Byte → Option (Word × List Byte)
  | lo :: hi :: rest => some (wordOfBytes lo hi, rest)
  | [_] => none
  | [] => none

/-- The bytes of `next_value(word)` (rule R30), kept as they stand in the stream: one byte when `word` is
false, two when it is true, none consumed at the end of the stream. -/
def nextField (word : Bool) (bytes : List Byte) : Option (StreamField × List Byte) :=
  if word then (nextWord bytes).map (fun r => (StreamField.word r.1, r.2))
  else (nextByte bytes).map (fun r => (StreamField.byte r.1, r.2))

/-! ### Decoding -/

/-- What the decoder answers: an instruction and the bytes after it, or one of the two ways the stream can
end (rules R106, R111). -/
inductive Decoded where
  /-- An instruction of the table, the fallback row included, and the bytes it did not consume. -/
  | ok (i : Instr) (rest : List Byte)
  /-- There is no leading byte (rule R106). -/
  | endOfInput
  /-- A byte after the leading byte is needed and missing (rule R122). -/
  | truncatedStream
deriving DecidableEq, Repr

/-- Continue with what a read answered; a read that found the end of the stream after the leading byte makes
the instruction truncated (rules R31, R122). -/
def Decoded.afterRead {α : Type} (read : Option α) (next : α → Decoded) : Decoded :=
  match read with
  | some a => next a
  | none => .truncatedStream

/-- The AddressingResolver's reads: the case analysis of rules R73, R74, R75, in that order. -/
def resolveRegMem (md : BitVec 2) (r_m : RegIdx) (bytes : List Byte) : Option (RegMem × List Byte) :=
  if md = 3#2 then some (.reg r_m, bytes)
  else if md = 0#2 then
    if r_m = 6#3 then (nextWord bytes).map (fun r => (.direct r.1, r.2))
    else some (.indexed r_m none, bytes)
  else (nextField (md == 2#2) bytes).map (fun r => (.indexed r_m (some r.1), r.2))

/-- Format RMR (rule R45): `b1`, then the displacement. -/
def decodeRmr (mk : RegIdx → RegMem → Instr) (bytes : List Byte) : Decoded :=
  .afterRead (nextByte bytes) fun (b1, r1) =>
    .afterRead (resolveRegMem (modField b1) (rmField b1) r1) fun (rm, r2) =>
      .ok (mk (regField b1) rm) r2

/-- The tail of formats RMI_MOV and RMI_ARITH once `b1` selected an instruction: the displacement, then the
immediate (rules R44, R45). -/
def decodeRmiTail (mk : RegMem → StreamField → Instr) (wd : Bool) (b1 : Byte) (bytes : List Byte) : Decoded :=
  .afterRead (resolveRegMem (modField b1) (rmField b1) bytes) fun (rm, r1) =>
    .afterRead (nextField wd r1) fun (imm, r2) => .ok (mk rm imm) r2

/-- Format RMI_MOV (rules R55, R57, R89): an unmapped `reg` makes `b0` unrecognized and leaves `b1` in the
stream. -/
def decodeRmiMov (b0 : Byte) (bytes : List Byte) : Decoded :=
  .afterRead (nextByte bytes) fun (b1, r1) =>
    if movImmMapped (regField b1) then
      decodeRmiTail (.movRmImm (wordFlag b0)) (wordFlag b0) b1 r1
    else .ok (.unrecognized b0 (some b1)) bytes

/-- The constructor an arithmetic-immediate mnemonic stands for. -/
def arithInstr : ArithOp → Bool → Bool → RegMem → StreamField → Instr
  | .add => .addRmImm
  | .sub => .subRmImm
  | .cmp => .cmpRmImm

/-- Format RMI_ARITH (rules R56, R57, R96 to R98), as `decodeRmiMov` with the mnemonic chosen by `reg`. -/
def decodeRmiArith (b0 : Byte) (bytes : List Byte) : Decoded :=
  .afterRead (nextByte bytes) fun (b1, r1) =>
    match arithOp (regField b1) with
    | some op =>
      decodeRmiTail (arithInstr op (signExtendFlag b0) (wordFlag b0))
        (wordData (signExtendFlag b0) (wordFlag b0)) b1 r1
    | none => .ok (.unrecognized b0 (some b1)) bytes

/-- Format RI (rule R90). -/
def decodeRi (b0 : Byte) (bytes : List Byte) : Decoded :=
  .afterRead (nextField (regImmWordFlag b0) bytes) fun (imm, r1) =>
    .ok (.movRegImm (regImmWordFlag b0) (regImmField b0) imm) r1

/-- Format MA (rules R91, R92): here `b0[1] = 0` makes the accumulator the destination. -/
def decodeMa (b0 : Byte) (bytes : List Byte) : Decoded :=
  .afterRead (nextWord bytes) fun (addr, r1) =>
    .ok (if directionFlag b0 then .movMemAcc (wordFlag b0) addr else .movAccMem (wordFlag b0) addr) r1

/-- The decoder: total on any bytes (rule R108). -/
def decode (bytes : List Byte) : Decoded :=
  match nextByte bytes with
  | none => .endOfInput
  | some (b0, rest) =>
    match classify b0 with
    | .movRmImm => decodeRmiMov b0 rest
    | .movRmReg => decodeRmr (.movRmReg (directionFlag b0) (wordFlag b0)) rest
    | .addRmReg => decodeRmr (.addRmReg (directionFlag b0) (wordFlag b0)) rest
    | .subRmReg => decodeRmr (.subRmReg (directionFlag b0) (wordFlag b0)) rest
    | .cmpRmReg => decodeRmr (.cmpRmReg (directionFlag b0) (wordFlag b0)) rest
    | .arithImm => decodeRmiArith b0 rest
    | .movAccumulator => decodeMa b0 rest
    | .movRegImm => decodeRi b0 rest
    | .unrecognized => .ok (.unrecognized b0 none) rest

/-! ### Encoding -/

/-- A leading byte `pppppp x w` of formats RMR, RMI_ARITH and MA (rule R45). -/
def leadingByte6 (p : BitVec 6) (x w : Bool) : Byte := p ++ BitVec.ofBool x ++ BitVec.ofBool w

/-- The leading byte `1100011 w` of format RMI_MOV (rule R45). -/
def leadingByte7 (p : BitVec 7) (w : Bool) : Byte := p ++ BitVec.ofBool w

/-- The leading byte `1011 w rrr` of format RI (rule R45). -/
def leadingByteRi (w : Bool) (reg : RegIdx) : Byte := (0b1011#4 ++ BitVec.ofBool w ++ reg : BitVec 8)

/-- The mod/reg/r-m byte `mm ggg aaa` (rules R45, R49). -/
def modRegRm (md : BitVec 2) (reg r_m : RegIdx) : Byte := md ++ reg ++ r_m

/-- The `mod` sub-field of an operand's encoding (rules R73 to R75). -/
def RegMem.modBits : RegMem → BitVec 2
  | .reg _ => 3#2
  | .direct _ => 0#2
  | .indexed _ none => 0#2
  | .indexed _ (some (.byte _)) => 1#2
  | .indexed _ (some (.word _)) => 2#2

/-- The `r_m` sub-field of an operand's encoding (rules R73 to R75). -/
def RegMem.rmBits : RegMem → RegIdx
  | .reg index => index
  | .direct _ => 6#3
  | .indexed r_m _ => r_m

/-- A 16-bit field as it is stored, low byte first (rule R32). -/
def wordBytes (v : Word) : List Byte := [lowByte v, highByte v]

/-- A displacement or immediate as it is stored. -/
def StreamField.bytes : StreamField → List Byte
  | .byte b => [b]
  | .word v => wordBytes v

/-- The displacement or direct-address bytes of an operand (rule R50). -/
def RegMem.dispBytes : RegMem → List Byte
  | .reg _ => []
  | .direct addr => wordBytes addr
  | .indexed _ none => []
  | .indexed _ (some f) => f.bytes

/-- `b1` and the displacement of an operand (rule R44). -/
def encodeRegMem (reg : RegIdx) (rm : RegMem) : List Byte :=
  modRegRm rm.modBits reg rm.rmBits :: rm.dispBytes

/-- The bytes an instruction consumes (rules R44, R45). -/
def encode : Instr → List Byte
  | .movRmReg d w reg rm => leadingByte6 0b100010#6 d w :: encodeRegMem reg rm
  | .movRmImm w rm imm => leadingByte7 0b1100011#7 w :: (encodeRegMem 0#3 rm ++ imm.bytes)
  | .movRegImm w reg imm => leadingByteRi w reg :: imm.bytes
  | .movAccMem w addr => leadingByte6 0b101000#6 false w :: wordBytes addr
  | .movMemAcc w addr => leadingByte6 0b101000#6 true w :: wordBytes addr
  | .addRmReg d w reg rm => leadingByte6 0b000000#6 d w :: encodeRegMem reg rm
  | .subRmReg d w reg rm => leadingByte6 0b001010#6 d w :: encodeRegMem reg rm
  | .cmpRmReg d w reg rm => leadingByte6 0b001110#6 d w :: encodeRegMem reg rm
  | .addRmImm s w rm imm => leadingByte6 0b100000#6 s w :: (encodeRegMem 0b000#3 rm ++ imm.bytes)
  | .subRmImm s w rm imm => leadingByte6 0b100000#6 s w :: (encodeRegMem 0b101#3 rm ++ imm.bytes)
  | .cmpRmImm s w rm imm => leadingByte6 0b100000#6 s w :: (encodeRegMem 0b111#3 rm ++ imm.bytes)
  | .unrecognized b0 _ => [b0]

/-- The byte that must follow an instruction for it to decode as it does: the examined `b1` of an unmapped
`reg` sub-field, which is not consumed (rule R57). No other instruction looks past its own bytes. -/
def lookahead : Instr → List Byte
  | .unrecognized _ (some b1) => [b1]
  | .unrecognized _ none => []
  | .movRmReg _ _ _ _ => []
  | .movRmImm _ _ _ => []
  | .movRegImm _ _ _ => []
  | .movAccMem _ _ => []
  | .movMemAcc _ _ => []
  | .addRmReg _ _ _ _ => []
  | .subRmReg _ _ _ _ => []
  | .cmpRmReg _ _ _ _ => []
  | .addRmImm _ _ _ _ => []
  | .subRmImm _ _ _ _ => []
  | .cmpRmImm _ _ _ _ => []

/-! ### Words of the opcode table -/

/-- The byte of `v` whose lowest bit is bit `at_` of `v`. -/
def byteFromBit (v at_ : Nat) : Byte := BitVec.ofNat 8 (v >>> at_)

/-- The six bytes, in stream order, of an instruction word numbered as the opcode table numbers it: the table's
word is `(b0 << 8) | b1` (rule R67), so `b0` is bits 15:8 and `b1` bits 7:0, and further bytes count on
from bit 16; a word of 8 bits is `b0` alone (log entry 4). Bits from `nbits` up are zero. -/
def tableBytes (nbits w : Nat) : List Byte :=
  let v := w % 2 ^ nbits
  if nbits ≤ 8 then [byteFromBit v 0, 0#8, 0#8, 0#8, 0#8, 0#8]
  else [byteFromBit v 8, byteFromBit v 0, byteFromBit v 16, byteFromBit v 24, byteFromBit v 32, byteFromBit v 40]

/-- The instruction the decoder reads from a word of the opcode table. -/
def decodeTableWord (nbits w : Nat) : Option Instr :=
  match decode (tableBytes nbits w) with
  | .ok i _ => some i
  | .endOfInput => none
  | .truncatedStream => none

end Sys2Proof
end

