-- ==== Sys2Proof/Machine/Operands.lean ====
section
/-! DEFINITION. The operand machinery: RegisterTable, EffectiveAddressTable, the values of displacements and
immediates, the lengths, and the InstructionEmitter's rendering (rules R50 to R52, R68 to R85). -/

namespace Sys2Proof.Machine

/-! ### The two constant tables -/

/-- RegisterTable (rules R68, R69, R70). -/
def regName (w : Bool) (i : RegIdx) : Text :=
  if w then
    match i with
    | 0#3 => ['a', 'x']
    | 1#3 => ['c', 'x']
    | 2#3 => ['d', 'x']
    | 3#3 => ['b', 'x']
    | 4#3 => ['s', 'p']
    | 5#3 => ['b', 'p']
    | 6#3 => ['s', 'i']
    | 7#3 => ['d', 'i']
  else
    match i with
    | 0#3 => ['a', 'l']
    | 1#3 => ['c', 'l']
    | 2#3 => ['d', 'l']
    | 3#3 => ['b', 'l']
    | 4#3 => ['a', 'h']
    | 5#3 => ['c', 'h']
    | 6#3 => ['d', 'h']
    | 7#3 => ['b', 'h']

/-- EffectiveAddressTable (rule R71). -/
def eaBase (r_m : RegIdx) : Text :=
  match r_m with
  | 0#3 => ['b', 'x', ' ', '+', ' ', 's', 'i']
  | 1#3 => ['b', 'x', ' ', '+', ' ', 'd', 'i']
  | 2#3 => ['b', 'p', ' ', '+', ' ', 's', 'i']
  | 3#3 => ['b', 'p', ' ', '+', ' ', 'd', 'i']
  | 4#3 => ['s', 'i']
  | 5#3 => ['d', 'i']
  | 6#3 => ['b', 'p']
  | 7#3 => ['b', 'x']

/-! ### Values -/

/-- `sext_8` of a byte value 0..255 (rules R9, R99). -/
def sext8 (b : Nat) : Int := if b < 128 then b else b - 256

/-- `sext_16` of a 16-bit pattern 0..65535 (rules R9, R100). -/
def sext16 (v : Nat) : Int := if v < 32768 then v else v - 65536

/-- The signed value of a displacement or immediate field (rules R62, R63). -/
def fieldValue : StreamField → Int
  | .byte b => sext8 b.toNat
  | .word v => sext16 v.toNat

/-- `next_value(word)` of the ByteSource (rule R30): the sign-extended value and the rest of the stream. -/
def nextValue (word : Bool) (bytes : List Byte) : Option (Int × List Byte) :=
  (nextField word bytes).map (fun r => (fieldValue r.1, r.2))

/-! ### Lengths -/

/-- `disp_len(mod, r_m)` (rule R50). -/
def dispLen (md : BitVec 2) (r_m : RegIdx) : Nat :=
  if md = 0#2 then (if r_m = 6#3 then 2 else 0)
  else if md = 1#2 then 1
  else if md = 2#2 then 2
  else 0

/-- `imm_len` from the word-data flag (rule R51). -/
def immLen (wd : Bool) : Nat := if wd then 2 else 1

/-- The length of an RMR instruction (rule R52). -/
def rmrLength (rm : RegMem) : Nat := 2 + dispLen rm.modBits rm.rmBits

/-- The length of an RMI_MOV or RMI_ARITH instruction with word-data flag `wd` (rule R52). -/
def rmiLength (rm : RegMem) (wd : Bool) : Nat := 2 + dispLen rm.modBits rm.rmBits + immLen wd

/-! ### Operands -/

/-- An operand (rule R72): a register name; a memory operand with its base expression, absent for a direct
address, and its displacement or address; an immediate value. -/
inductive Operand where
  | reg (name : Text)
  | mem (base : Option Text) (disp : Int)
  | imm (value : Int)
deriving DecidableEq, Repr

/-- The displacement of an indexed operand: 0 when none was read (rules R63, R75). -/
def dispValue : Option StreamField → Int
  | none => 0
  | some f => fieldValue f

/-- The operand that `mod`, `r_m` and the displacement stand for, under the word flag `w` (rules R73 to R75).
A direct address is unsigned (rule R64). -/
def regMemOperand (w : Bool) : RegMem → Operand
  | .reg index => .reg (regName w index)
  | .direct addr => .mem none addr.toNat
  | .indexed r_m disp => .mem (some (eaBase r_m)) (dispValue disp)

/-! ### Numbers as text -/

/-- `dec(v)`: the decimal numeral without leading zeros (rule R79). -/
def dec (v : Nat) : Text := Nat.toDigits 10 v

/-- A lower-case hexadecimal digit (rule R66). -/
def hexDigit (n : BitVec 4) : Char := Nat.digitChar n.toNat

/-- `hex2(b)`: the digits of `b[7:4]` and `b[3:0]` (rule R66). -/
def hex2 (b : Byte) : Text := [hexDigit (b.extractLsb' 4 4), hexDigit (b.extractLsb' 0 4)]

/-! ### InstructionEmitter -/

/-- `Render` of a memory operand with a base expression: a zero displacement is not written, a negative one is
written as ` - ` and its magnitude over the integers (rules R81, R101). -/
def renderBased (base : Text) (disp : Int) : Text :=
  if disp = 0 then ['['] ++ base ++ [']']
  else if 0 < disp then ['['] ++ base ++ [' ', '+', ' '] ++ dec disp.natAbs ++ [']']
  else ['['] ++ base ++ [' ', '-', ' '] ++ dec disp.natAbs ++ [']']

/-- `Render` of an immediate: a leading `-` without a space when negative (rule R83). -/
def renderImm (v : Int) : Text :=
  if 0 ≤ v then dec v.natAbs else ['-'] ++ dec v.natAbs

/-- `Render(Operand)` (rules R80 to R83). -/
def render : Operand → Text
  | .reg name => name
  | .mem (some base) disp => renderBased base disp
  | .mem none addr => ['['] ++ dec addr.toNat ++ [']']
  | .imm v => renderImm v

/-- The size keyword and one space (rule R84): chosen by the word flag `w`. -/
def sizeKeyword (w : Bool) : Text := if w then ['w', 'o', 'r', 'd', ' '] else ['b', 'y', 't', 'e', ' ']

/-- The destination text of formats RMI_MOV and RMI_ARITH: a memory operand is preceded by the size keyword,
a register is not (rule R84). -/
def immDestText (w : Bool) (rm : RegMem) : Text :=
  if rm.isReg then render (regMemOperand w rm)
  else sizeKeyword w ++ render (regMemOperand w rm)

/-- The line `"<mnemonic> <dest>, <src>\n"` (rule R85). -/
def line (mnemonic dest src : Text) : Text :=
  mnemonic ++ [' '] ++ dest ++ [',', ' '] ++ src ++ ['\n']

/-- The line of an RMR instruction: `d = 1` makes the register field the destination (rule R85). -/
def rmrLine (mnemonic : Text) (d w : Bool) (reg : RegIdx) (rm : RegMem) : Text :=
  if d then line mnemonic (render (.reg (regName w reg))) (render (regMemOperand w rm))
  else line mnemonic (render (regMemOperand w rm)) (render (.reg (regName w reg)))

/-- The line of an RMI_MOV or RMI_ARITH instruction: the immediate is always the source (rule R85). -/
def rmiLine (mnemonic : Text) (w : Bool) (rm : RegMem) (imm : StreamField) : Text :=
  line mnemonic (immDestText w rm) (render (.imm (fieldValue imm)))

/-- The direct-address operand of format MA (rules R64, R91, R92). -/
def accMemOperand (addr : Word) : Operand := .mem none addr.toNat

/-- The unrecognized-opcode line `"; xx\n"` (rule R66). -/
def commentLine (b0 : Byte) : Text := [';', ' '] ++ hex2 b0 ++ ['\n']

/-- The header: the directive `bits 16`, a line feed and an empty line (rule R66). -/
def header : Text := ['b', 'i', 't', 's', ' ', '1', '6', '\n', '\n']

/-- The mnemonics (rule R65). -/
def mnMov : Text := ['m', 'o', 'v']
/-- See `mnMov`. -/
def mnAdd : Text := ['a', 'd', 'd']
/-- See `mnMov`. -/
def mnSub : Text := ['s', 'u', 'b']
/-- See `mnMov`. -/
def mnCmp : Text := ['c', 'm', 'p']

/-! ### Per instruction -/

/-- The text a step that runs the instruction emits (rules R88 to R98, R110). -/
def instrText : Instr → Text
  | .movRmReg d w reg rm => rmrLine mnMov d w reg rm
  | .movRmImm w rm imm => rmiLine mnMov w rm imm
  | .movRegImm w reg imm => line mnMov (render (.reg (regName w reg))) (render (.imm (fieldValue imm)))
  | .movAccMem w addr => line mnMov (render (.reg (regName w 0#3))) (render (accMemOperand addr))
  | .movMemAcc w addr => line mnMov (render (accMemOperand addr)) (render (.reg (regName w 0#3)))
  | .addRmReg d w reg rm => rmrLine mnAdd d w reg rm
  | .subRmReg d w reg rm => rmrLine mnSub d w reg rm
  | .cmpRmReg d w reg rm => rmrLine mnCmp d w reg rm
  | .addRmImm _ w rm imm => rmiLine mnAdd w rm imm
  | .subRmImm _ w rm imm => rmiLine mnSub w rm imm
  | .cmpRmImm _ w rm imm => rmiLine mnCmp w rm imm
  | .unrecognized b0 _ => commentLine b0

/-- The number of bytes an instruction consumes (rule R52). -/
def instrLength : Instr → Nat
  | .movRmReg _ _ _ rm => rmrLength rm
  | .movRmImm w rm _ => rmiLength rm w
  | .movRegImm w _ _ => 1 + immLen w
  | .movAccMem _ _ => 3
  | .movMemAcc _ _ => 3
  | .addRmReg _ _ _ rm => rmrLength rm
  | .subRmReg _ _ _ rm => rmrLength rm
  | .cmpRmReg _ _ _ rm => rmrLength rm
  | .addRmImm sx w rm _ => rmiLength rm (wordData sx w)
  | .subRmImm sx w rm _ => rmiLength rm (wordData sx w)
  | .cmpRmImm sx w rm _ => rmiLength rm (wordData sx w)
  | .unrecognized _ _ => 1

end Sys2Proof.Machine
end

