-- ==== Sys2Proof/Machine/State.lean ====
section
/-! DEFINITION. The state of the block: the tuple `(cursor, phase, cause, OUT)` of rule R14, the input image it
reads (rule R19, log entry 1) and the inputs the host drives (rule R26, log entry 2). -/

namespace Sys2Proof.Machine

/-- `phase`, the 2-bit status register of rule R16, by the names of its four codes (log entry 9). -/
inductive Phase where
  /-- Code 0: the header has not been written yet. -/
  | start
  /-- Code 1: awaiting the next leading byte. -/
  | awaiting
  /-- Code 2: the stream is exhausted, a clean end. -/
  | exhausted
  /-- Code 3: the terminal fault state. -/
  | faulted
deriving DecidableEq, Repr

/-- `cause`, the 3-bit status register of rule R17, by the names of the four codes it can hold (log entry 9). -/
inductive Cause where
  /-- Code 0. -/
  | none
  /-- Code 1. -/
  | endOfInput
  /-- Code 3. -/
  | truncatedStream
  /-- Code 4. -/
  | ioFailure
deriving DecidableEq, Repr

/-- The input image as cells `(offset, byte)`. An offset that is not listed holds no byte: reading it is
`EndOfStream` (rules R28, R35; log entry 12). -/
abbrev Memory := List Host.Cell

/-- The canonical form of an image: the listed offsets are exactly `0, 1, .., N - 1` in this order (rule R35),
so equal images are equal lists. -/
def Memory.wf (m : Memory) : Bool := m.map Prod.fst == List.range m.length

/-- What the host drives in one step (rule R26): `reset` with the image of the new run, and `io_error`. -/
structure HostInput where
  reset : Option (List Byte)
  ioError : Bool
deriving DecidableEq, Repr

/-- The reasons of a fault outcome: none. The spec describes the effect of every event, a truncated
instruction and a stream failure included, as a state change (rules R111, R119, R123), so the machine never
stops outside the spec's own terminal phases (log entry 11); an empty type is safe. -/
inductive Fault
deriving DecidableEq, Repr

/-- The reasons of a refusal. -/
inductive Refusal where
  /-- An instruction that has no meaning in the model yet, by its mnemonic; raised by an arm of `exec` only.
  Safe: nothing is claimed of such an instruction. No arm raises it. -/
  | notModelled (mnemonic : String)
deriving DecidableEq, Repr

/-- The state of the block. -/
structure State where
  /-- The offset in the image of the next leading byte (rule R15): an unbounded natural number. -/
  cursor : Nat
  /-- The state of the decode loop (rule R16). -/
  phase : Phase
  /-- Why the run ended (rule R17). -/
  cause : Cause
  /-- `OUT`: the characters written since reset, oldest first (rule R18). -/
  out : Text
  /-- `IN`: the input image, which no step of the block writes (rules R19, R41). -/
  image : Memory
  /-- What the host drives in the coming steps, the next step first; beyond the end of the list it drives
  nothing (rule R26, log entry 2). -/
  host : List HostInput
deriving DecidableEq, Repr

/-- Right after reset (rules R27, R135). The image is empty and the host asserts nothing: log entries 1, 2. -/
def State.reset : State :=
  { cursor := 0
    phase := .start
    cause := .none
    out := []
    image := []
    host := [] }

end Sys2Proof.Machine
end

