-- ==== Sys2Proof/Machine/Ops.lean ====
section
/-! DEFINITION. The shared operations: reading the image, appending to the output, moving the cursor, taking an
event, and the host's reset, which is the only way out of a terminal phase (rules R28, R36, R119, R135). -/

namespace Sys2Proof.Machine

/-! ### The input image -/

/-- `N`, the length of the image (rule R7). -/
def Memory.size (m : Memory) : Nat := m.length

/-- `Fetch(addr)` (rule R28): one byte, or nothing where the image has none. -/
def Memory.fetch (m : Memory) (addr : Nat) : Option Byte := m.lookup addr

/-- `MemRead(addr, n)` (rule R28): `n` consecutive bytes, all or nothing. -/
def Memory.read (m : Memory) (addr : Nat) : Nat → Option (List Byte)
  | 0 => some []
  | n + 1 =>
    match m.fetch addr with
    | none => none
    | some b => (Memory.read m (addr + 1) n).map (fun bs => b :: bs)

/-- The bytes from `addr` on, at most `n` of them and none past the end: the combinational view of rule R25. -/
def Memory.bytesFrom (m : Memory) (addr : Nat) : Nat → List Byte
  | 0 => []
  | n + 1 =>
    match m.fetch addr with
    | none => []
    | some b => b :: Memory.bytesFrom m (addr + 1) n

/-- The bytes of the image in stream order. -/
def Memory.bytes (m : Memory) : List Byte := m.map Prod.snd

/-- The image whose first byte stands at offset `addr`. -/
def Memory.ofBytesAt (addr : Nat) : List Byte → Memory
  | [] => []
  | b :: bs => (addr, b) :: Memory.ofBytesAt (addr + 1) bs

/-- The image the host supplies as a byte sequence (rules R7, R19). -/
def Memory.ofBytes (bytes : List Byte) : Memory := Memory.ofBytesAt 0 bytes

/-- Put one byte at an offset, keeping the offsets rising. No step of the block does this (rule R41); it is how
an image is prepared outside the machine. -/
def Memory.put (m : Memory) (addr : Nat) (b : Byte) : Memory :=
  match m with
  | [] => [(addr, b)]
  | (k, v) :: rest =>
    if addr < k then (addr, b) :: (k, v) :: rest
    else if addr = k then (addr, b) :: rest
    else (k, v) :: Memory.put rest addr b

/-- Put consecutive bytes from an offset on. -/
def Memory.putBytes (m : Memory) (addr : Nat) : List Byte → Memory
  | [] => m
  | b :: bs => Memory.putBytes (Memory.put m addr b) (addr + 1) bs

/-! ### Host inputs and status outputs -/

/-- The image the host's `reset` binds in this step, if it is asserted (rules R26, R135). -/
def State.resetNow (s : State) : Option (List Byte) :=
  match s.host with
  | [] => none
  | h :: _ => h.reset

/-- Whether `io_error` is asserted at the start of this step (rule R26). -/
def State.ioErrorNow (s : State) : Bool :=
  match s.host with
  | [] => false
  | h :: _ => h.ioError

/-- The state after this step's host inputs were sampled. -/
def State.sampled (s : State) : State := { s with host := s.host.tail }

/-- The code of `phase` (rule R16). -/
def Phase.code : Phase → BitVec 2
  | .start => 0
  | .awaiting => 1
  | .exhausted => 2
  | .faulted => 3

/-- The code of `cause` (rule R17). -/
def Cause.code : Cause → BitVec 3
  | .none => 0
  | .endOfInput => 1
  | .truncatedStream => 3
  | .ioFailure => 4

/-! ### Output and cursor -/

/-- `Emit(text)` (rule R36). -/
def State.emit (s : State) (text : Text) : State := { s with out := s.out ++ text }

/-- `pc <- pc + len` (rules R10, R102). -/
def State.advance (s : State) (len : Nat) : State := { s with cursor := s.cursor + len }

/-- The commit of a step that emits a line and consumes `len` bytes (rules R36, R109). -/
def State.commit (s : State) (text : Text) (len : Nat) : State := (s.emit text).advance len

/-- The step from `Start` (rule R105). -/
def State.writeHeader (s : State) : State := { s.emit header with phase := .awaiting }

/-! ### Events -/

/-- The events of rule R119. -/
inductive Event where
  | endOfInput
  | unrecognizedOpcode (b0 : Byte)
  | truncatedStream
  | ioFailure
deriving DecidableEq, Repr

/-- The code of an event (rule R119). -/
def Event.code : Event → BitVec 3
  | .endOfInput => 1
  | .unrecognizedOpcode _ => 2
  | .truncatedStream => 3
  | .ioFailure => 4

/-- Taking an event: the whole effect of rule R119. Nothing is saved and nothing is vectored (rule R126); the
recoverable event completes its recovery here (rules R110, R128). -/
def State.raise (s : State) : Event → State
  | .endOfInput => { s with phase := .exhausted, cause := .endOfInput }
  | .unrecognizedOpcode b0 => s.commit (commentLine b0) 1
  | .truncatedStream => { s with phase := .faulted, cause := .truncatedStream }
  | .ioFailure => { s with phase := .faulted, cause := .ioFailure }

/-- The host's `reset`: from any state, to the reset values, with the image of the new run (rule R135). There
is no other return from a terminal phase (rule R128). -/
def State.hostReset (s : State) (bytes : List Byte) : State :=
  { State.reset with image := Memory.ofBytes bytes, host := s.host }

end Sys2Proof.Machine
end

