-- ==== Sys2Proof/Machine/Arith.lean ====
section
/-! DEFINITION. The add, subtract and compare families (rules R93 to R98). Nothing is added, subtracted or
compared and no flag is written: the instruction is printed (rules R2, R103). -/

namespace Sys2Proof.Machine

/-- ADD r/m, reg and ADD reg, r/m (rule R93). -/
def execAddRmReg (d w : Bool) (reg : RegIdx) (rm : RegMem) (s : State) : Host.Outcome State Fault Refusal :=
  .next (s.commit (rmrLine mnAdd d w reg rm) (rmrLength rm))

/-- SUB r/m, reg and SUB reg, r/m (rule R94). -/
def execSubRmReg (d w : Bool) (reg : RegIdx) (rm : RegMem) (s : State) : Host.Outcome State Fault Refusal :=
  .next (s.commit (rmrLine mnSub d w reg rm) (rmrLength rm))

/-- CMP r/m, reg and CMP reg, r/m (rule R95). -/
def execCmpRmReg (d w : Bool) (reg : RegIdx) (rm : RegMem) (s : State) : Host.Outcome State Fault Refusal :=
  .next (s.commit (rmrLine mnCmp d w reg rm) (rmrLength rm))

/-- ADD r/m, imm (rule R96). `w` chooses the names and the keyword; `s` and `w` together choose how many
immediate bytes were consumed (rule R78). -/
def execAddRmImm (sx w : Bool) (rm : RegMem) (imm : StreamField) (s : State) : Host.Outcome State Fault Refusal :=
  .next (s.commit (rmiLine mnAdd w rm imm) (rmiLength rm (wordData sx w)))

/-- SUB r/m, imm (rule R97). -/
def execSubRmImm (sx w : Bool) (rm : RegMem) (imm : StreamField) (s : State) : Host.Outcome State Fault Refusal :=
  .next (s.commit (rmiLine mnSub w rm imm) (rmiLength rm (wordData sx w)))

/-- CMP r/m, imm (rule R98). -/
def execCmpRmImm (sx w : Bool) (rm : RegMem) (imm : StreamField) (s : State) : Host.Outcome State Fault Refusal :=
  .next (s.commit (rmiLine mnCmp w rm imm) (rmiLength rm (wordData sx w)))

end Sys2Proof.Machine
end

