-- ==== Sys2Proof/Machine/Mov.lean ====
section
/-! DEFINITION. The move families (rules R88 to R92). The meaning of an instruction is the line the block emits
and the number of bytes it consumes (rule R2). -/

namespace Sys2Proof.Machine

/-- MOV r/m, reg and MOV reg, r/m (rule R88). -/
def execMovRmReg (d w : Bool) (reg : RegIdx) (rm : RegMem) (s : State) : Host.Outcome State Fault Refusal :=
  .next (s.commit (rmrLine mnMov d w reg rm) (rmrLength rm))

/-- MOV r/m, imm (rule R89): the word-data flag is `w`. -/
def execMovRmImm (w : Bool) (rm : RegMem) (imm : StreamField) (s : State) : Host.Outcome State Fault Refusal :=
  .next (s.commit (rmiLine mnMov w rm imm) (rmiLength rm w))

/-- MOV reg, imm (rule R90): no size keyword. -/
def execMovRegImm (w : Bool) (reg : RegIdx) (imm : StreamField) (s : State) : Host.Outcome State Fault Refusal :=
  .next (s.commit (line mnMov (render (.reg (regName w reg))) (render (.imm (fieldValue imm)))) (1 + immLen w))

/-- MOV acc, mem (rule R91): the accumulator is index 0 of the half that `w` selects. -/
def execMovAccMem (w : Bool) (addr : Word) (s : State) : Host.Outcome State Fault Refusal :=
  .next (s.commit (line mnMov (render (.reg (regName w 0#3))) (render (accMemOperand addr))) 3)

/-- MOV mem, acc (rule R92). -/
def execMovMemAcc (w : Bool) (addr : Word) (s : State) : Host.Outcome State Fault Refusal :=
  .next (s.commit (line mnMov (render (accMemOperand addr)) (render (.reg (regName w 0#3)))) 3)

end Sys2Proof.Machine
end

