-- ==== Sys2Proof/Machine/Unrecognized.lean ====
section
/-! DEFINITION. The fallback row of the opcode table (rule R110). -/

namespace Sys2Proof.Machine

/-- An unrecognized leading byte: the event of rule R121, whose effect is the comment line and one byte
consumed. A byte that was examined to see the `reg` sub-field is neither printed nor consumed. -/
def execUnrecognized (b0 : Byte) (_examined : Option Byte) (s : State) : Host.Outcome State Fault Refusal :=
  .next (s.raise (.unrecognizedOpcode b0))

end Sys2Proof.Machine
end

