-- ==== Sys2Proof/Machine/Dispatch.lean ====
section
/-! DEFINITION. One arm per instruction of the opcode table. -/

namespace Sys2Proof.Machine

def exec (i : Instr) (s : State) : Host.Outcome State Fault Refusal :=
  match i with
  | .movRmReg d w reg rm => Sys2Proof.Machine.execMovRmReg d w reg rm s
  | .movRmImm w rm imm => Sys2Proof.Machine.execMovRmImm w rm imm s
  | .movRegImm w reg imm => Sys2Proof.Machine.execMovRegImm w reg imm s
  | .movAccMem w addr => Sys2Proof.Machine.execMovAccMem w addr s
  | .movMemAcc w addr => Sys2Proof.Machine.execMovMemAcc w addr s
  | .addRmReg d w reg rm => Sys2Proof.Machine.execAddRmReg d w reg rm s
  | .subRmReg d w reg rm => Sys2Proof.Machine.execSubRmReg d w reg rm s
  | .cmpRmReg d w reg rm => Sys2Proof.Machine.execCmpRmReg d w reg rm s
  | .addRmImm sx w rm imm => Sys2Proof.Machine.execAddRmImm sx w rm imm s
  | .subRmImm sx w rm imm => Sys2Proof.Machine.execSubRmImm sx w rm imm s
  | .cmpRmImm sx w rm imm => Sys2Proof.Machine.execCmpRmImm sx w rm imm s
  | .unrecognized b0 examined => Sys2Proof.Machine.execUnrecognized b0 examined s

end Sys2Proof.Machine
end

