-- ==== Sys2Proof/Machine/Loop.lean ====
section
/-! DEFINITION. The DecodeLoop: what a step does (rule R125), doing it (rules R104 to R112), and the event label
the step outputs (rule R104). -/

namespace Sys2Proof.Machine

/-- What one step can do. -/
inductive Action where
  /-- The host asserts `reset` and supplies an image (rule R135); it takes this whole step (log entry 8). -/
  | hostReset (bytes : List Byte)
  /-- A terminal phase: the block has no step, and the machine's step leaves it as it is (rule R112, log
  entry 10). -/
  | rest
  /-- The host asserts `io_error` (rule R123). -/
  | ioFailure
  /-- The header step (rule R105). -/
  | header
  /-- No leading byte (rule R106). -/
  | endOfInput
  /-- A byte after the leading byte is missing (rule R111). -/
  | truncated
  /-- Run an instruction, the fallback row included (rules R109, R110). -/
  | run (i : Instr)
deriving DecidableEq, Repr

/-- The bytes the decode function examines: the window at the cursor (rules R25, R108). -/
def State.window (s : State) : List Byte := s.image.bytesFrom s.cursor Config.window

/-- What the decoder answers at the cursor (rule R107). -/
def State.decoded (s : State) : Action :=
  match decode s.window with
  | .ok i _ => .run i
  | .endOfInput => .endOfInput
  | .truncatedStream => .truncated

/-- What this step does, by the priority of rule R125. A terminal phase has no step, so `io_error` has no effect
in it (rule R112, log entry 5). -/
def State.action (s : State) : Action :=
  match s.resetNow with
  | some bytes => .hostReset bytes
  | none =>
    match s.phase with
    | .exhausted => .rest
    | .faulted => .rest
    | .start => if s.ioErrorNow then .ioFailure else .header
    | .awaiting => if s.ioErrorNow then .ioFailure else s.decoded

/-- Do it, on the state whose host inputs were sampled. -/
def Action.perform (a : Action) (s : State) : Host.Outcome State Fault Refusal :=
  match a with
  | .hostReset bytes => .next (s.hostReset bytes)
  | .rest => .next s
  | .ioFailure => .next (s.raise .ioFailure)
  | .header => .next s.writeHeader
  | .endOfInput => .next (s.raise .endOfInput)
  | .truncated => .next (s.raise .truncatedStream)
  | .run i => exec i s

/-- The event labels (rules R26, R104). -/
inductive Label where
  | header
  | line
  | unrecognized
  | endOfRun
  | fault
deriving DecidableEq, Repr

/-- The label of an instruction's step (rules R109, R110). -/
def instrLabel : Instr → Label
  | .movRmReg _ _ _ _ => .line
  | .movRmImm _ _ _ => .line
  | .movRegImm _ _ _ => .line
  | .movAccMem _ _ => .line
  | .movMemAcc _ _ => .line
  | .addRmReg _ _ _ _ => .line
  | .subRmReg _ _ _ _ => .line
  | .cmpRmReg _ _ _ _ => .line
  | .addRmImm _ _ _ _ => .line
  | .subRmImm _ _ _ _ => .line
  | .cmpRmImm _ _ _ _ => .line
  | .unrecognized _ _ => .unrecognized

/-- The label of what a step does; the host's reset and a terminal phase are no step of the block and have
none. -/
def Action.label : Action → Option Label
  | .hostReset _ => none
  | .rest => none
  | .ioFailure => some .fault
  | .header => some .header
  | .endOfInput => some .endOfRun
  | .truncated => some .fault
  | .run i => some (instrLabel i)

/-- `event`: the label this step outputs, which is not stored (rule R26, log entry 13). -/
def State.event (s : State) : Option Label := s.action.label

end Sys2Proof.Machine
end

