-- ==== Sys2Proof/Machine/Step.lean ====
section
/-! DEFINITION. One step of the block (rule R104), and how an opcode-table word is placed so that the next step
runs it. -/

namespace Sys2Proof.Machine

/-- One step: choose what to do, sample the host's inputs, do it. -/
def step (s : State) : Host.Outcome State Fault Refusal := s.action.perform s.sampled

/-- The state in which the very next step runs the instruction of an opcode-table word: its bytes stand at the
cursor, the header has been written (phase `Awaiting`, cause `None`) and the host asserts nothing. It stands
for the host's supplying an image (log entry 3). -/
def State.withFetchWord (s : State) (nbits w : Nat) : State :=
  { s with
    image := s.image.putBytes s.cursor (tableBytes nbits w)
    phase := .awaiting
    cause := .none
    host := [] }

end Sys2Proof.Machine
end

