-- ==== Sys2Proof/Machine/Window.lean ====
section
/-! DEFINITION. `Decode(IN, c)` of rule R108 as the spec's pseudocode writes it: reads of the image at absolute
offsets (`MemRead(c + k, n)`), integers, and the three results. The machine itself decodes through the
forward-only reader of Decode.lean; the claims say that the two agree (rule R118). Nothing in the machine
uses this file. -/

namespace Sys2Proof.Machine

/-- The three results of `Decode(IN, c)` (rule R108). -/
inductive WindowResult where
  | line (text : Text) (len : Nat)
  | unrec (text : Text)
  | trunc
deriving DecidableEq, Repr

/-- `raise TruncatedStream` when a read or a sub-rule found the end of the stream (rule R122). -/
def WindowResult.orTrunc {α : Type} (read : Option α) (next : α → WindowResult) : WindowResult :=
  match read with
  | some a => next a
  | none => .trunc

/-- `lo | (hi << 8)` (rule R9). -/
def assemble16 (lo hi : Byte) : Nat := lo.toNat ||| (hi.toNat <<< 8)

/-- `MemRead(addr, 2)` assembled low byte first (rules R28, R32). -/
def windowRead16 (m : Memory) (addr : Nat) : Option Nat :=
  match m.read addr 2 with
  | some [lo, hi] => some (assemble16 lo hi)
  | some _ => none
  | none => none

/-- `Resolve(mod, r_m, w, p)`: rules R73, R74, R75 tested in this order; `none` is `raise TruncatedStream`. -/
def windowResolve (m : Memory) (md : BitVec 2) (r_m : RegIdx) (w : Bool) (p : Nat) : Option Operand :=
  if md = 0b11#2 then some (.reg (regName w r_m))
  else if md = 0b00#2 ∧ r_m = 0b110#3 then (windowRead16 m p).map (fun v => .mem none (v : Int))
  else if md = 0b00#2 then some (.mem (some (eaBase r_m)) 0)
  else if md = 0b01#2 then (m.fetch p).map (fun b => .mem (some (eaBase r_m)) (sext8 b.toNat))
  else (windowRead16 m p).map (fun v => .mem (some (eaBase r_m)) (sext16 v))

/-- `ReadImm(wd, q)` (rules R62, R77). -/
def windowReadImm (m : Memory) (wd : Bool) (q : Nat) : Option Operand :=
  if wd then (windowRead16 m q).map (fun v => .imm (sext16 v))
  else (m.fetch q).map (fun b => .imm (sext8 b.toNat))

/-- `dest_text` of rules R89 and R96 to R98: the keyword unless `mod = 11` (rule R84). -/
def windowDestText (md : BitVec 2) (w : Bool) (M : Operand) : Text :=
  if md = 0b11#2 then render M
  else (if w then ['w', 'o', 'r', 'd', ' '] else ['b', 'y', 't', 'e', ' ']) ++ render M

/-- `RmrLine(mn)` of 42_arith.md, which is also the pseudocode of rule R88 with `mn = mov`. -/
def windowRmr (mn : Text) (m : Memory) (c : Nat) (b0 : Byte) : WindowResult :=
  .orTrunc (m.fetch (c + 1)) fun b1 =>
    .orTrunc (windowResolve m (modField b1) (rmField b1) (b0.getLsbD 0) (c + 2)) fun M =>
      .line
        (if b0.getLsbD 1 then line mn (render (.reg (regName (b0.getLsbD 0) (regField b1)))) (render M)
         else line mn (render M) (render (.reg (regName (b0.getLsbD 0) (regField b1)))))
        (2 + dispLen (modField b1) (rmField b1))

/-- The common tail of rule R89 and of `RmiLine()`: the operand, the immediate, the line. -/
def windowRmiTail (mn : Text) (w wd : Bool) (m : Memory) (c : Nat) (b1 : Byte) : WindowResult :=
  .orTrunc (windowResolve m (modField b1) (rmField b1) w (c + 2)) fun M =>
    .orTrunc (windowReadImm m wd (c + 2 + dispLen (modField b1) (rmField b1))) fun I =>
      .line (line mn (windowDestText (modField b1) w M) (render I))
        (2 + dispLen (modField b1) (rmField b1) + (if wd then 2 else 1))

/-- The pseudocode of rule R89. -/
def windowMovRmImm (m : Memory) (c : Nat) (b0 : Byte) : WindowResult :=
  .orTrunc (m.fetch (c + 1)) fun b1 =>
    if regField b1 = 0b000#3 then windowRmiTail mnMov (b0.getLsbD 0) (b0.getLsbD 0) m c b1
    else .unrec (commentLine b0)

/-- `RmiLine()` of 42_arith.md (rules R96, R97, R98). -/
def windowArithImm (m : Memory) (c : Nat) (b0 : Byte) : WindowResult :=
  .orTrunc (m.fetch (c + 1)) fun b1 =>
    if regField b1 = 0b000#3 then windowRmiTail mnAdd (b0.getLsbD 0) (!b0.getLsbD 1 && b0.getLsbD 0) m c b1
    else if regField b1 = 0b101#3 then windowRmiTail mnSub (b0.getLsbD 0) (!b0.getLsbD 1 && b0.getLsbD 0) m c b1
    else if regField b1 = 0b111#3 then windowRmiTail mnCmp (b0.getLsbD 0) (!b0.getLsbD 1 && b0.getLsbD 0) m c b1
    else .unrec (commentLine b0)

/-- The pseudocode of rule R90. -/
def windowMovRegImm (m : Memory) (c : Nat) (b0 : Byte) : WindowResult :=
  .orTrunc (windowReadImm m (b0.getLsbD 3) (c + 1)) fun I =>
    .line (line mnMov (render (.reg (regName (b0.getLsbD 3) (b0.extractLsb' 0 3)))) (render I))
      (1 + (if b0.getLsbD 3 then 2 else 1))

/-- The pseudocode of rules R91 (`b0[1] = 0`) and R92 (`b0[1] = 1`). -/
def windowMovAccumulator (m : Memory) (c : Nat) (b0 : Byte) : WindowResult :=
  .orTrunc (windowRead16 m (c + 1)) fun addr =>
    .line
      (if b0.getLsbD 1 then
         line mnMov (render (.mem none (addr : Int))) (render (.reg (regName (b0.getLsbD 0) 0b000#3)))
       else line mnMov (render (.reg (regName (b0.getLsbD 0) 0b000#3))) (render (.mem none (addr : Int))))
      3

/-- `Decode(IN, c)` with `b0 = IN[c]`: the first row of rule R53 that `b0` matches (rule R108). -/
def windowDecode (m : Memory) (c : Nat) (b0 : Byte) : WindowResult :=
  if b0 &&& 0xFE#8 = 0xC6#8 then windowMovRmImm m c b0
  else if b0 &&& 0xFC#8 = 0x88#8 then windowRmr mnMov m c b0
  else if b0 &&& 0xFC#8 = 0x00#8 then windowRmr mnAdd m c b0
  else if b0 &&& 0xFC#8 = 0x28#8 then windowRmr mnSub m c b0
  else if b0 &&& 0xFC#8 = 0x38#8 then windowRmr mnCmp m c b0
  else if b0 &&& 0xFC#8 = 0x80#8 then windowArithImm m c b0
  else if b0 &&& 0xFC#8 = 0xA0#8 then windowMovAccumulator m c b0
  else if b0 &&& 0xF0#8 = 0xB0#8 then windowMovRegImm m c b0
  else .unrec (commentLine b0)

/-- Acting on a result of `Decode` (rules R109, R110, R111). -/
def WindowResult.act (r : WindowResult) (s : State) : State :=
  match r with
  | .line text len => { s with out := s.out ++ text, cursor := s.cursor + len }
  | .unrec text => { s with out := s.out ++ text, cursor := s.cursor + 1 }
  | .trunc => { s with phase := .faulted, cause := .truncatedStream }

/-- The length rule R52 gives from `b0` and, where it exists, `b1`; without `b1` a format that has one needs
two bytes at least (rules R52, R57, R122). -/
def neededLength (b0 : Byte) (b1 : Option Byte) : Nat :=
  match classify b0 with
  | .unrecognized => 1
  | .movAccumulator => 3
  | .movRegImm => 1 + immLen (b0.getLsbD 3)
  | .movRmReg => match b1 with
    | none => 2
    | some b1 => 2 + dispLen (modField b1) (rmField b1)
  | .addRmReg => match b1 with
    | none => 2
    | some b1 => 2 + dispLen (modField b1) (rmField b1)
  | .subRmReg => match b1 with
    | none => 2
    | some b1 => 2 + dispLen (modField b1) (rmField b1)
  | .cmpRmReg => match b1 with
    | none => 2
    | some b1 => 2 + dispLen (modField b1) (rmField b1)
  | .movRmImm => match b1 with
    | none => 2
    | some b1 =>
      if movImmMapped (regField b1) then 2 + dispLen (modField b1) (rmField b1) + immLen (b0.getLsbD 0)
      else 1
  | .arithImm => match b1 with
    | none => 2
    | some b1 =>
      if (arithOp (regField b1)).isSome then
        2 + dispLen (modField b1) (rmField b1) + immLen (wordData (b0.getLsbD 1) (b0.getLsbD 0))
      else 1

end Sys2Proof.Machine
end

