-- ==== Sys2Proof/Safety.lean ====
section
/-! DEFINITION. The terms claims are stated in: states that decode, terminal states, runs, the machine's
invariant, the grammar of the output (rule R65), and which instructions an output lists (rule R113). -/

namespace Sys2Proof.Safety

open Sys2Proof.Machine

/-! ### States and runs -/

/-- The host asserts neither `reset` nor `io_error` in this step (rule R26). -/
abbrev HostIdle (s : State) : Prop := s.resetNow = none ∧ s.ioErrorNow = false

/-- A state whose step decodes (rules R106, R107): phase `Awaiting` and an idle host. -/
abbrev Ready (s : State) : Prop := s.phase = .awaiting ∧ HostIdle s

/-- A terminal phase (rule R112): the run is over. -/
abbrev Terminal (s : State) : Prop := s.phase = .exhausted ∨ s.phase = .faulted

/-- The state right after the host's reset with an image, the host asserting nothing from then on (rules R27,
R135; "never asserted" is the premise of rule R123). -/
def runStart (bytes : List Byte) : State := { State.reset with image := Memory.ofBytes bytes }

/-- The state a line-emitting step leaves: the text appended, the cursor moved, everything else as it was (rules
R36, R109). -/
def emits (s : State) (text : Text) (len : Nat) : State :=
  { s with cursor := s.cursor + len, out := s.out ++ text }

/-! ### The invariant -/

/-- The agreement of `cause` with `phase` (rule R17). -/
abbrev CauseAgrees (s : State) : Prop :=
  (s.cause = .none ↔ s.phase = .start ∨ s.phase = .awaiting) ∧
  (s.cause = .endOfInput ↔ s.phase = .exhausted) ∧
  (s.cause = .truncatedStream ∨ s.cause = .ioFailure ↔ s.phase = .faulted)

/-- Nothing was written yet, as right after reset (rules R27, R105). -/
abbrev Fresh (s : State) : Prop := s.cursor = 0 ∧ s.out = []

/-- What holds of every state of a run: the image is a byte sequence (rule R35), the cursor is at most `N` (rule
R15), `cause` agrees with `phase` (rule R17), a run that has not begun is fresh (rules R27, R105), a clean end
is at `N` and a truncated instruction begins before it (rule R117), and the header comes first, unless the
run ended before it was written (rules R105, R123). -/
structure Inv (s : State) : Prop where
  image_wf : s.image.wf = true
  cursor_le : s.cursor ≤ s.image.size
  cause_agrees : CauseAgrees s
  start_fresh : s.phase = .start → Fresh s
  exhausted_at_end : s.phase = .exhausted → s.cursor = s.image.size
  truncated_before_end : s.cause = .truncatedStream → s.cursor < s.image.size
  header_first : s.phase ≠ .start → header <+: s.out ∨ (s.cause = .ioFailure ∧ Fresh s)

/-! ### The listing -/

/-- `Listed m a is c`: decoding the image from offset `a` on, one instruction after another, gives exactly `is`
and ends at offset `c` (rules R113, R138). -/
def Listed (m : Memory) (a : Nat) : List Instr → Nat → Prop
  | [], c => a = c
  | i :: is, c => (∃ rest, decode (m.bytesFrom a Config.window) = .ok i rest) ∧ Listed m (a + instrLength i) is c

/-- The output is the header and the line of every instruction before the cursor, and these instructions' bytes
are exactly the bytes before the cursor (rules R113, R117, R127). -/
def Accounted (s : State) : Prop :=
  ∃ is : List Instr, Listed s.image 0 is s.cursor ∧ is.flatMap encode = s.image.bytes.take s.cursor ∧
    s.out = header ++ is.flatMap instrText

/-- What every state of a run satisfies about its output: nothing is written before the header, nothing at all
when the run ended before the header, and otherwise the listing of what was consumed. -/
def Listing (s : State) : Prop :=
  (s.phase = .start ∧ Fresh s) ∨ (s.phase = .faulted ∧ Fresh s) ∨ (s.phase ≠ .start ∧ Accounted s)

/-! ### The grammar of rule R65 -/

/-- `digit`. -/
def isDigit (c : Char) : Bool := c ∈ ['0', '1', '2', '3', '4', '5', '6', '7', '8', '9']

/-- `number := "0" | nonzero-digit digit*`. -/
def isNumber : Text → Bool
  | [] => false
  | c :: cs => (c == '0' && cs.isEmpty) || (c != '0' && isDigit c && cs.all isDigit)

/-- `reg`. -/
def registerNames : List Text :=
  [['a', 'l'], ['c', 'l'], ['d', 'l'], ['b', 'l'], ['a', 'h'], ['c', 'h'], ['d', 'h'], ['b', 'h'],
   ['a', 'x'], ['c', 'x'], ['d', 'x'], ['b', 'x'], ['s', 'p'], ['b', 'p'], ['s', 'i'], ['d', 'i']]

/-- `base`. -/
def baseExpressions : List Text :=
  [['b', 'x', ' ', '+', ' ', 's', 'i'], ['b', 'x', ' ', '+', ' ', 'd', 'i'], ['b', 'p', ' ', '+', ' ', 's', 'i'],
   ['b', 'p', ' ', '+', ' ', 'd', 'i'], ['s', 'i'], ['d', 'i'], ['b', 'p'], ['b', 'x']]

/-- `mem`, with the constraint that the number beside a base is never 0. -/
def IsMem (t : Text) : Prop :=
  (∃ b ∈ baseExpressions, t = ['['] ++ b ++ [']']) ∨
  (∃ b ∈ baseExpressions, ∃ n, isNumber n = true ∧ n ≠ ['0'] ∧
    (t = ['['] ++ b ++ [' ', '+', ' '] ++ n ++ [']'] ∨
     t = ['['] ++ b ++ [' ', '-', ' '] ++ n ++ [']'])) ∨
  (∃ n, isNumber n = true ∧ t = ['['] ++ n ++ [']'])

/-- `imm`. -/
def IsImm (t : Text) : Prop :=
  isNumber t = true ∨ ∃ n, isNumber n = true ∧ t = ['-'] ++ n

/-- `dest` and `src` together, with the constraints that at most one is a memory operand and that the size
keyword stands exactly when the source is an immediate and the destination a memory operand. -/
def IsOperandPair (dest src : Text) : Prop :=
  (dest ∈ registerNames ∧ (src ∈ registerNames ∨ IsMem src ∨ IsImm src)) ∨
  (IsMem dest ∧ src ∈ registerNames) ∨
  (∃ size ∈ [['b', 'y', 't', 'e'], ['w', 'o', 'r', 'd']], ∃ mem, dest = size ++ [' '] ++ mem ∧ IsMem mem ∧ IsImm src)

/-- `insn LF`. -/
def IsInsnLine (t : Text) : Prop :=
  ∃ mn ∈ [['m', 'o', 'v'], ['a', 'd', 'd'], ['s', 'u', 'b'], ['c', 'm', 'p']], ∃ dest src, IsOperandPair dest src ∧
    t = mn ++ [' '] ++ dest ++ [',', ' '] ++ src ++ ['\n']

/-- `hexdigit`. -/
def hexDigits : Text :=
  ['0', '1', '2', '3', '4', '5', '6', '7', '8', '9', 'a', 'b', 'c', 'd', 'e', 'f']

/-- `comment LF`. -/
def IsCommentLine (t : Text) : Prop :=
  ∃ h ∈ hexDigits, ∃ l ∈ hexDigits, t = [';', ' '] ++ [h, l] ++ ['\n']

/-- `line`. -/
def IsLine (t : Text) : Prop := IsInsnLine t ∨ IsCommentLine t

/-- `header`. -/
def headerText : Text := ['b', 'i', 't', 's', ' ', '1', '6', '\n', '\n']

/-- `output`. -/
def IsOutput (t : Text) : Prop :=
  ∃ lines : List Text, (∀ l ∈ lines, IsLine l) ∧ t = headerText ++ lines.flatten

/-- What every state of a run satisfies about its output as text (rule R65). -/
def OutputWellFormed (s : State) : Prop :=
  (s.phase = .start ∧ s.out = []) ∨ (s.phase = .faulted ∧ s.out = []) ∨ (s.phase ≠ .start ∧ IsOutput s.out)

end Sys2Proof.Safety
end

