-- ==== Sys2Proof/Certificates/Slice0/Obligations.lean ====
section
/-! DEFINITION. The statements for the provers. Each docstring names the rules it formalises and the spec's own
decision (D<n>), general-knowledge item (K<n>) or log entry it rests on, if any. -/

open Sys2Proof Sys2Proof.Machine Sys2Proof.Safety

namespace Sys2Proof.Stated

/-! What the statements say about texts, written out from the rules and not through the model's renderer. -/

/-- The number a displacement or immediate field stands for: two's complement (rules R9, R99, R100). -/
def fieldInt : StreamField → Int
  | .byte b => b.toInt
  | .word v => v.toInt

/-- The displacement term beside a base expression (rule R81). -/
def dispTerm (v : Int) : Text :=
  if v = 0 then [] else if 0 < v then [' ', '+', ' '] ++ dec v.toNat else [' ', '-', ' '] ++ dec (-v).toNat

/-- A register-or-memory operand as text, without a size keyword (rules R80 to R82). -/
def rmText (w : Bool) : RegMem → Text
  | .reg i => regName w i
  | .direct a => ['['] ++ dec a.toNat ++ [']']
  | .indexed r none => ['['] ++ eaBase r ++ [']']
  | .indexed r (some f) => ['['] ++ eaBase r ++ dispTerm (fieldInt f) ++ [']']

/-- The destination of the formats with an immediate: the size keyword before a memory operand (rule R84). -/
def destText (w : Bool) : RegMem → Text
  | .reg i => regName w i
  | .direct a => (if w then ['w', 'o', 'r', 'd', ' '] else ['b', 'y', 't', 'e', ' ']) ++ rmText w (.direct a)
  | .indexed r f => (if w then ['w', 'o', 'r', 'd', ' '] else ['b', 'y', 't', 'e', ' ']) ++ rmText w (.indexed r f)

/-- An immediate as text (rule R83). -/
def immText (f : StreamField) : Text :=
  if 0 ≤ fieldInt f then dec (fieldInt f).toNat else ['-'] ++ dec (-(fieldInt f)).toNat

/-- A two-operand line (rule R85). -/
def twoOperands (mn dest src : Text) : Text := mn ++ dest ++ [',', ' '] ++ src ++ ['\n']

/-- The line of format RMR, ordered by `d` (rule R85). -/
def rmrText (mn : Text) (d w : Bool) (reg : RegIdx) (rm : RegMem) : Text :=
  if d then twoOperands mn (regName w reg) (rmText w rm) else twoOperands mn (rmText w rm) (regName w reg)

/-- Both encodings of a register pair in format RMR print `q` first and `r` second: `d = 0` with `r` in the `reg`
sub-field, `d = 1` with `q` in it (rule R61). -/
def PrintsRegisterPair (mn : Text) (w : Bool) (r q : RegIdx) (mk : Bool → Bool → RegIdx → RegMem → Instr) : Prop :=
  instrText (mk false w r (.reg q)) = twoOperands mn (regName w q) (regName w r) ∧
  instrText (mk true w q (.reg r)) = twoOperands mn (regName w q) (regName w r)

/-- The eight instructions with a register-or-memory operand print the operand of base `r` and displacement field
`disp` as the base alone in brackets, whether it is the source or the destination (rules R61, R81, R84). -/
def PrintsBaseAlone (d sx w : Bool) (reg r : RegIdx) (imm : StreamField) (disp : Option StreamField) : Prop :=
  let mem := ['['] ++ eaBase r ++ [']']
  let rmr := fun mn : Text =>
    if d then twoOperands mn (regName w reg) mem else twoOperands mn mem (regName w reg)
  let rmi := fun mn : Text =>
    twoOperands mn ((if w then ['w', 'o', 'r', 'd', ' '] else ['b', 'y', 't', 'e', ' ']) ++ mem) (immText imm)
  instrText (.movRmReg d w reg (.indexed r disp)) = rmr ['m', 'o', 'v', ' '] ∧
  instrText (.addRmReg d w reg (.indexed r disp)) = rmr ['a', 'd', 'd', ' '] ∧
  instrText (.subRmReg d w reg (.indexed r disp)) = rmr ['s', 'u', 'b', ' '] ∧
  instrText (.cmpRmReg d w reg (.indexed r disp)) = rmr ['c', 'm', 'p', ' '] ∧
  instrText (.movRmImm w (.indexed r disp) imm) = rmi ['m', 'o', 'v', ' '] ∧
  instrText (.addRmImm sx w (.indexed r disp) imm) = rmi ['a', 'd', 'd', ' '] ∧
  instrText (.subRmImm sx w (.indexed r disp) imm) = rmi ['s', 'u', 'b', ' '] ∧
  instrText (.cmpRmImm sx w (.indexed r disp) imm) = rmi ['c', 'm', 'p', ' ']

/-- The hexadecimal digit of a number below 16 (rule R66). -/
def hexOf (n : Nat) : Char := hexDigits.getD n '?'

/-- Whether a leading byte is of a format that has a `b1` (rule R45). -/
abbrev HasSecondByte (b0 : Byte) : Prop :=
  b0 &&& 0xFC#8 ∈ [0x88#8, 0x00#8, 0x28#8, 0x38#8, 0x80#8] ∨ b0 &&& 0xFE#8 = 0xC6#8

/-- The second way to be unrecognized, by the values of rule R121. -/
abbrev UnmappedSecondByte (b0 b1 : Byte) : Prop :=
  (b0 ∈ [0xC6#8, 0xC7#8] ∧ regField b1 ≠ 0#3) ∨
  (b0 ∈ [0x80#8, 0x81#8, 0x82#8, 0x83#8] ∧ regField b1 ∈ [1#3, 2#3, 3#3, 4#3, 6#3])

/-- The first way to be unrecognized, by the ranges of rule R58. -/
abbrev UnmatchedLeadingByte (b0 : Byte) : Prop :=
  (0x04 ≤ b0.toNat ∧ b0.toNat ≤ 0x27) ∨ (0x2C ≤ b0.toNat ∧ b0.toNat ≤ 0x37) ∨
  (0x3C ≤ b0.toNat ∧ b0.toNat ≤ 0x7F) ∨ (0x84 ≤ b0.toNat ∧ b0.toNat ≤ 0x87) ∨
  (0x8C ≤ b0.toNat ∧ b0.toNat ≤ 0x9F) ∨ (0xA4 ≤ b0.toNat ∧ b0.toNat ≤ 0xAF) ∨
  (0xC0 ≤ b0.toNat ∧ b0.toNat ≤ 0xC5) ∨ (0xC8 ≤ b0.toNat ∧ b0.toNat ≤ 0xFF)

end Sys2Proof.Stated

open Sys2Proof.Stated

/-! ### What each instruction does, and its frame -/

/-- MOV, ADD, SUB, CMP of register with register-or-memory complete in every state and for every operand: the line
ordered by `d`, `2 + disp_len` bytes consumed, and everything else (phase, cause, image, host) unchanged
(41_mov.md, 42_arith.md; rules R85, R88, R93 to R95 in text). -/
def Obligations.RmrInstructionsEmitTheirLine : Prop :=
  ∀ (d w : Bool) (reg : RegIdx) (rm : RegMem) (s : State),
    exec (.movRmReg d w reg rm) s =
      .next (emits s (rmrText ['m', 'o', 'v', ' '] d w reg rm) (2 + dispLen rm.modBits rm.rmBits)) ∧
    exec (.addRmReg d w reg rm) s =
      .next (emits s (rmrText ['a', 'd', 'd', ' '] d w reg rm) (2 + dispLen rm.modBits rm.rmBits)) ∧
    exec (.subRmReg d w reg rm) s =
      .next (emits s (rmrText ['s', 'u', 'b', ' '] d w reg rm) (2 + dispLen rm.modBits rm.rmBits)) ∧
    exec (.cmpRmReg d w reg rm) s =
      .next (emits s (rmrText ['c', 'm', 'p', ' '] d w reg rm) (2 + dispLen rm.modBits rm.rmBits))

/-- ADD, SUB, CMP of an immediate with register-or-memory complete in every state and for every operand: the
destination with its size keyword from `w`, the signed immediate, and `2 + disp_len + imm_len` bytes, where
two immediate bytes are consumed exactly when `s = 0` and `w = 1` (42_arith.md section 2). -/
def Obligations.ArithImmInstructionsEmitTheirLine : Prop :=
  ∀ (sx w : Bool) (rm : RegMem) (imm : StreamField) (s : State),
    exec (.addRmImm sx w rm imm) s =
      .next (emits s (twoOperands ['a', 'd', 'd', ' '] (destText w rm) (immText imm))
        (2 + dispLen rm.modBits rm.rmBits + (if sx = false ∧ w = true then 2 else 1))) ∧
    exec (.subRmImm sx w rm imm) s =
      .next (emits s (twoOperands ['s', 'u', 'b', ' '] (destText w rm) (immText imm))
        (2 + dispLen rm.modBits rm.rmBits + (if sx = false ∧ w = true then 2 else 1))) ∧
    exec (.cmpRmImm sx w rm imm) s =
      .next (emits s (twoOperands ['c', 'm', 'p', ' '] (destText w rm) (immText imm))
        (2 + dispLen rm.modBits rm.rmBits + (if sx = false ∧ w = true then 2 else 1)))

/-- MOV of an immediate to register-or-memory and to register complete in every state and for every operand
(41_mov.md, the rules of formats RMI_MOV and RI). -/
def Obligations.MovImmInstructionsEmitTheirLine : Prop :=
  ∀ (w : Bool) (reg : RegIdx) (rm : RegMem) (imm : StreamField) (s : State),
    exec (.movRmImm w rm imm) s =
      .next (emits s (twoOperands ['m', 'o', 'v', ' '] (destText w rm) (immText imm))
        (2 + dispLen rm.modBits rm.rmBits + (if w then 2 else 1))) ∧
    exec (.movRegImm w reg imm) s =
      .next (emits s (twoOperands ['m', 'o', 'v', ' '] (regName w reg) (immText imm)) (1 + (if w then 2 else 1)))

/-- The two accumulator moves complete in every state: the accumulator name from `w`, the unsigned address in
brackets, three bytes (41_mov.md, the rules of format MA; decisions D12, D17). -/
def Obligations.AccumulatorMovesEmitTheirLine : Prop :=
  ∀ (w : Bool) (addr : Word) (s : State),
    exec (.movAccMem w addr) s =
      .next (emits s (twoOperands ['m', 'o', 'v', ' '] (if w then ['a', 'x'] else ['a', 'l'])
        (['['] ++ dec addr.toNat ++ [']'])) 3) ∧
    exec (.movMemAcc w addr) s =
      .next (emits s (twoOperands ['m', 'o', 'v', ' '] (['['] ++ dec addr.toNat ++ [']'])
        (if w then ['a', 'x'] else ['a', 'l'])) 3)

/-- The fallback row completes in every state: the comment line of `b0` alone and one byte, whatever was
examined (45_decode_loop.md, unrecognized opcode; decision D9). -/
def Obligations.FallbackEmitsTheCommentLine : Prop :=
  ∀ (b0 : Byte) (examined : Option Byte) (s : State),
    exec (.unrecognized b0 examined) s =
      .next (emits s ([';', ' '] ++ [hexOf (b0.toNat / 16), hexOf (b0.toNat % 16)] ++ ['\n']) 1)

/-- The frame of every instruction: when it gives a next state, no status register, no byte of the image and no
host input has changed, what was written stays written, and the cursor moved on by 1 to 6 bytes
(10_state.md, 20_memory.md). -/
def Obligations.InstructionsOnlyWriteOutputAndCursor : Prop :=
  ∀ (i : Instr) (s t : State), exec i s = .next t →
    t.phase = s.phase ∧ t.cause = s.cause ∧ t.host = s.host ∧ t.image = s.image ∧
    (∀ a, t.image.fetch a = s.image.fetch a) ∧ s.out <+: t.out ∧
    s.cursor + 1 ≤ t.cursor ∧ t.cursor ≤ s.cursor + 6

/-! ### The instruction rules, from the bytes of the image -/

/-- Rule R88 (pattern value: the spec's K1): a step on a leading byte `100010dw` is the pseudocode of MOV r/m, reg
and MOV reg, r/m, its truncation included. -/
def Obligations.MovRmRegStepFollowsItsPseudocode : Prop :=
  ∀ (s : State) (b0 : Byte), Ready s → s.image.fetch s.cursor = some b0 → b0 &&& 0xFC#8 = 0x88#8 →
    step s = .next ((windowRmr ['m', 'o', 'v'] s.image s.cursor b0).act s.sampled)

/-- Rule R89 (K1, K2; decisions D9, D13): a step on a leading byte `1100011w` is the pseudocode of MOV r/m, imm,
its unmapped `reg` and its truncation included. -/
def Obligations.MovRmImmStepFollowsItsPseudocode : Prop :=
  ∀ (s : State) (b0 : Byte), Ready s → s.image.fetch s.cursor = some b0 → b0 &&& 0xFE#8 = 0xC6#8 →
    step s = .next ((windowMovRmImm s.image s.cursor b0).act s.sampled)

/-- Rule R90 (K1, K5): a step on a leading byte `1011wreg` is the pseudocode of MOV reg, imm. -/
def Obligations.MovRegImmStepFollowsItsPseudocode : Prop :=
  ∀ (s : State) (b0 : Byte), Ready s → s.image.fetch s.cursor = some b0 → b0 &&& 0xF0#8 = 0xB0#8 →
    step s = .next ((windowMovRegImm s.image s.cursor b0).act s.sampled)

/-- Rules R91 and R92 (K1, K6; decisions D12, D17): a step on a leading byte `101000dw` is the pseudocode of the
accumulator moves, `d = 0` the load and `d = 1` the store. -/
def Obligations.AccumulatorMoveStepsFollowTheirPseudocode : Prop :=
  ∀ (s : State) (b0 : Byte), Ready s → s.image.fetch s.cursor = some b0 → b0 &&& 0xFC#8 = 0xA0#8 →
    step s = .next ((windowMovAccumulator s.image s.cursor b0).act s.sampled)

/-- Rules R93, R94, R95 (K1, K8): a step on a leading byte `000000dw`, `001010dw` or `001110dw` is `RmrLine` with
its mnemonic. -/
def Obligations.ArithRmRegStepsFollowTheirPseudocode : Prop :=
  ∀ (s : State) (b0 : Byte), Ready s → s.image.fetch s.cursor = some b0 →
    (b0 &&& 0xFC#8 = 0x00#8 → step s = .next ((windowRmr ['a', 'd', 'd'] s.image s.cursor b0).act s.sampled)) ∧
    (b0 &&& 0xFC#8 = 0x28#8 → step s = .next ((windowRmr ['s', 'u', 'b'] s.image s.cursor b0).act s.sampled)) ∧
    (b0 &&& 0xFC#8 = 0x38#8 → step s = .next ((windowRmr ['c', 'm', 'p'] s.image s.cursor b0).act s.sampled))

/-- Rules R96, R97, R98 (K1, K2, K4; decisions D9, D13, D18): a step on a leading byte `100000sw` is `RmiLine()`. -/
def Obligations.ArithImmStepsFollowTheirPseudocode : Prop :=
  ∀ (s : State) (b0 : Byte), Ready s → s.image.fetch s.cursor = some b0 → b0 &&& 0xFC#8 = 0x80#8 →
    step s = .next ((windowArithImm s.image s.cursor b0).act s.sampled)

/-- Rules R107 to R111 (decisions D3, D7, D9): a step in `Awaiting` with a byte at the cursor commits the result of
`Decode(IN, cursor)`, computed by reads at absolute offsets, and outputs the label that belongs to it; a line
consumes 2 to 6 bytes, all of them in the image. -/
def Obligations.StepCommitsTheDecodeFunction : Prop :=
  ∀ (s : State) (b0 : Byte), Ready s → s.image.wf = true → s.image.fetch s.cursor = some b0 →
    step s = .next ((windowDecode s.image s.cursor b0).act s.sampled) ∧
    (∀ text len, windowDecode s.image s.cursor b0 = .line text len →
      s.event = some .line ∧ 2 ≤ len ∧ len ≤ 6 ∧ s.cursor + len ≤ s.image.size) ∧
    (∀ text, windowDecode s.image s.cursor b0 = .unrec text →
      s.event = some .unrecognized ∧ text = commentLine b0) ∧
    (windowDecode s.image s.cursor b0 = .trunc → s.event = some .fault)

/-- A step reads nothing of the image outside the window of six bytes at the cursor: two states that agree on the
window and on everything but the image take the same step, but for the image (10_state.md section 9,
45_decode_loop.md section 1; decision D3). -/
def Obligations.StepReadsOnlyTheWindow : Prop :=
  ∀ (s : State) (m : Memory) (t : State), s.resetNow = none →
    (∀ k, k < 6 → m.fetch (s.cursor + k) = s.image.fetch (s.cursor + k)) →
    step s = .next t → step { s with image := m } = .next { t with image := m }

/-! ### The step function -/

/-- When the window at the cursor decodes to an instruction, the step is that instruction's meaning in the state
whose host inputs were sampled (45_decode_loop.md section 1). -/
def Obligations.StepRunsTheDecodedInstruction : Prop :=
  ∀ (s : State) (i : Instr) (rest : List Byte), Ready s → decode s.window = .ok i rest →
    step s = exec i s.sampled

/-- Rule R105 (decision D5): the step from `Start` writes the header and reads nothing; no step but the host's reset
comes back to `Start`, so the header is written once. -/
def Obligations.FirstStepWritesTheHeader : Prop :=
  (∀ s : State, HostIdle s → s.phase = .start →
    step s = .next { s with phase := .awaiting, out := s.out ++ headerText, host := s.host.tail } ∧
    s.event = some .header) ∧
  (∀ s t : State, s.resetNow = none → step s = .next t → t.phase ≠ .start) ∧
  (∀ s : State, s.event = some .header → s.phase = .start)

/-- Rule R106: at the end of the image the step ends the run cleanly, and only there. -/
def Obligations.EndOfInputStep : Prop :=
  ∀ s : State, Ready s → s.image.wf = true → s.cursor ≤ s.image.size →
    (s.cursor = s.image.size →
      step s = .next { s with phase := .exhausted, cause := .endOfInput, host := s.host.tail } ∧
      s.event = some .endOfRun) ∧
    (s.event = some .endOfRun → s.cursor = s.image.size)

/-- Rule R110 (decision D9): both ways to be unrecognized give the comment line of the leading byte and one byte
consumed; phase, cause and image stay. -/
def Obligations.UnrecognizedByteStep : Prop :=
  ∀ (s : State) (b0 : Byte), Ready s → s.image.fetch s.cursor = some b0 →
    (UnmatchedLeadingByte b0 ∨ ∃ b1, s.image.fetch (s.cursor + 1) = some b1 ∧ UnmappedSecondByte b0 b1) →
    step s = .next (emits s.sampled
      ([';', ' '] ++ [hexOf (b0.toNat / 16), hexOf (b0.toNat % 16)] ++ ['\n']) 1) ∧
    s.event = some .unrecognized

/-- Rules R111 and R122 (decisions D7, D8): with a byte at the cursor, the step is the truncation fault exactly when
the length computed from as many of `b0`, `b1` as exist reaches past the end of the image. -/
def Obligations.TruncationExactlyWhenBytesAreMissing : Prop :=
  ∀ (s : State) (b0 : Byte), Ready s → s.image.wf = true → s.image.fetch s.cursor = some b0 →
    (step s = .next { s with phase := .faulted, cause := .truncatedStream, host := s.host.tail } ↔
      s.image.size < s.cursor + neededLength b0 (s.image.fetch (s.cursor + 1))) ∧
    (s.event = some .fault ↔ s.image.size < s.cursor + neededLength b0 (s.image.fetch (s.cursor + 1)))

/-- A byte whose instruction is wholly in the image always gives a line (an instruction's or the comment), and the
cursor moves on by exactly the length of the length rule (45_decode_loop.md section 2, 30_encoding.md
section 2). -/
def Obligations.CompleteInstructionAdvancesByItsLength : Prop :=
  ∀ (s : State) (b0 : Byte), Ready s → s.image.wf = true → s.image.fetch s.cursor = some b0 →
    s.cursor + neededLength b0 (s.image.fetch (s.cursor + 1)) ≤ s.image.size →
    ∃ text, IsLine text ∧ step s = .next (emits s.sampled text (neededLength b0 (s.image.fetch (s.cursor + 1))))

/-- Rule R123 (decision D10): `io_error` at the start of a step of a run that is not over ends it. -/
def Obligations.IoErrorEndsTheRun : Prop :=
  ∀ s : State, s.resetNow = none → s.ioErrorNow = true → (s.phase = .start ∨ s.phase = .awaiting) →
    step s = .next { s with phase := .faulted, cause := .ioFailure, host := s.host.tail } ∧
    s.event = some .fault

/-- Rule R112 (decisions D4, D7, D10): in a terminal phase nothing but `reset` changes the state of the block and no
event is output; `io_error` ends the run from either other phase. That `io_error` does nothing in a terminal
phase is read from "the state does not change until `reset`" (log entry 5). -/
def Obligations.TerminalPhasesRest : Prop :=
  ∀ s : State, s.resetNow = none →
    (Terminal s → step s = .next { s with host := s.host.tail } ∧ s.event = none) ∧
    (s.phase = .start ∨ s.phase = .awaiting → s.ioErrorNow = true →
      step s = .next { s with phase := .faulted, cause := .ioFailure, host := s.host.tail })

/-- Rule R135 (decisions D1, D25): `reset` overrides everything, from any state, and binds the new image. -/
def Obligations.HostResetFromAnyState : Prop :=
  ∀ (s : State) (bytes : List Byte), s.resetNow = some bytes →
    ∃ t, step s = .next t ∧ t.cursor = 0 ∧ t.phase = .start ∧ t.cause = .none ∧ t.out = [] ∧
      t.image.bytes = bytes ∧ t.image.wf = true ∧ t.host = s.host.tail ∧
      (HostIdle t → step t = .next { t with phase := .awaiting, out := headerText, host := t.host.tail })

/-- The priority among simultaneous conditions (rule R125; decision D27): which event a step reports, in the nine
points' order. In a terminal phase there is no step for point 2 to apply to (log entry 5). -/
def Obligations.EventPriority : Prop :=
  ∀ s : State, s.image.wf = true →
    (s.resetNow ≠ none → s.event = none) ∧
    (s.resetNow = none → ¬ Terminal s → s.ioErrorNow = true → s.event = some .fault) ∧
    (HostIdle s → s.phase = .start → s.event = some .header) ∧
    (Ready s → s.cursor = s.image.size → s.event = some .endOfRun) ∧
    (∀ b0, Ready s → s.image.fetch s.cursor = some b0 →
      (UnmatchedLeadingByte b0 → s.event = some .unrecognized) ∧
      (HasSecondByte b0 → s.cursor + 1 = s.image.size → s.event = some .fault) ∧
      (∀ b1, s.image.fetch (s.cursor + 1) = some b1 → UnmappedSecondByte b0 b1 → s.event = some .unrecognized) ∧
      (s.image.size < s.cursor + neededLength b0 (s.image.fetch (s.cursor + 1)) → s.event = some .fault) ∧
      (2 ≤ neededLength b0 (s.image.fetch (s.cursor + 1)) →
        s.cursor + neededLength b0 (s.image.fetch (s.cursor + 1)) ≤ s.image.size → s.event = some .line))

/-- The event label tells what the step did to the state (45_decode_loop.md section 1, 60_exceptions.md
section 1; decisions D4, D6). -/
def Obligations.EventTellsWhatTheStepDid : Prop :=
  ∀ s t : State, step s = .next t →
    (s.event = some .header → t = { emits s.sampled headerText 0 with phase := .awaiting }) ∧
    (s.event = some .line → ∃ text len, IsInsnLine text ∧ 2 ≤ len ∧ len ≤ 6 ∧ t = emits s.sampled text len) ∧
    (s.event = some .unrecognized → ∃ text, IsCommentLine text ∧ t = emits s.sampled text 1) ∧
    (s.event = some .endOfRun → t = { s.sampled with phase := .exhausted, cause := .endOfInput }) ∧
    (s.event = some .fault → t = { s.sampled with phase := .faulted, cause := .truncatedStream } ∨
      t = { s.sampled with phase := .faulted, cause := .ioFailure }) ∧
    (s.event = none → s.resetNow ≠ none ∨ (Terminal s ∧ t = s.sampled))

/-- Rule R119 (decision D6): the complete effect of each event and its code; a terminal event leaves its own code in
`cause`, the recoverable one leaves phase and cause alone. -/
def Obligations.EventEffectsAndCodes : Prop :=
  ∀ (s : State) (b0 : Byte),
    Event.endOfInput.code = 1 ∧ (Event.unrecognizedOpcode b0).code = 2 ∧ Event.truncatedStream.code = 3 ∧
    Event.ioFailure.code = 4 ∧
    s.raise .endOfInput = { s with phase := .exhausted, cause := .endOfInput } ∧
    s.raise .truncatedStream = { s with phase := .faulted, cause := .truncatedStream } ∧
    s.raise .ioFailure = { s with phase := .faulted, cause := .ioFailure } ∧
    s.raise (.unrecognizedOpcode b0) = emits s
      ([';', ' '] ++ [hexOf (b0.toNat / 16), hexOf (b0.toNat % 16)] ++ ['\n']) 1 ∧
    (∀ e ∈ [Event.endOfInput, .truncatedStream, .ioFailure], (s.raise e).cause.code = e.code)

/-- No step stops the machine: it always answers a next state (60_exceptions.md sections 1 and 4). This is the
model's choice where the spec has no step or lets a stream block: a terminal phase answers the state it is in
(log entry 10), truncation and I/O failure are next states (log entry 11), a step always completes (log
entry 16). -/
def Obligations.EveryStepAnswersANextState : Prop :=
  ∀ s : State, ∃ t, step s = .next t

/-! ### Reset, invariants and whole-machine rules -/

/-- Rule R27 (decisions D1, D4 to D6): the reset values the spec gives. -/
def Obligations.ResetValues : Prop :=
  State.reset.cursor = 0 ∧ State.reset.phase.code = 0 ∧ State.reset.cause.code = 0 ∧ State.reset.out = []

/-- The invariant holds at reset, whatever image the host supplies (the empty image at `State.reset` is the
model's choice, log entry 1). -/
def Obligations.InvariantAtReset : Prop :=
  Inv State.reset ∧ ∀ bytes, Inv (runStart bytes)

/-- Every step keeps the invariant: the image stays a byte sequence, the cursor stays within it, `cause` agrees
with `phase`, the header comes first, a clean end is at the end (10_state.md sections 3 and 4). -/
def Obligations.StepKeepsTheInvariant : Prop :=
  ∀ s t : State, Inv s → step s = .next t → Inv t

/-- At reset nothing is listed. -/
def Obligations.ListingAtReset : Prop :=
  Listing State.reset ∧ ∀ bytes, Listing (runStart bytes)

/-- Every step keeps the listing: the output is the header and one line for each instruction before the cursor, and
these instructions' bytes are exactly the bytes before the cursor, so that every consumed byte belongs to
exactly one line and none is skipped (45_decode_loop.md section 2, 60_exceptions.md section 4). -/
def Obligations.StepKeepsTheListing : Prop :=
  ∀ s t : State, s.image.wf = true → Listing s → step s = .next t → Listing t

/-- Rule R65 (decisions D11, D13, D14, D20; K8): every step keeps the output in the grammar, with the constraints
on the operands that the grammar does not show. -/
def Obligations.StepKeepsTheOutputGrammar : Prop :=
  OutputWellFormed State.reset ∧
  ∀ s t : State, OutputWellFormed s → step s = .next t → OutputWellFormed t

/-- Every character a step writes is in the character set (00_scope.md section 4; decision D20). -/
def Obligations.StepKeepsTheCharset : Prop :=
  ∀ s t : State, (∀ c ∈ s.out, c ∈ Config.charset) → step s = .next t → ∀ c ∈ t.out, c ∈ Config.charset

/-- Rule R18 (decision D1): `OUT` is empty at reset, and without `reset` a step leaves it unchanged or appends the
header or one whole line, ended by its only line feed. -/
def Obligations.OutputIsAppendOnly : Prop :=
  State.reset.out = [] ∧
  ∀ s t : State, s.resetNow = none → step s = .next t →
    t.out = s.out ∨ t.out = s.out ++ headerText ∨
    ∃ body, '\n' ∉ body ∧ t.out = s.out ++ (body ++ ['\n'])

/-- Rule R17 (decision D6): the codes of `cause`, its agreement with `phase` at reset and after every step, and its
stickiness: once non-zero it changes only by reset. -/
def Obligations.CauseAgreesAndIsSticky : Prop :=
  Cause.none.code = 0 ∧ Cause.endOfInput.code = 1 ∧ Cause.truncatedStream.code = 3 ∧ Cause.ioFailure.code = 4 ∧
  State.reset.cause.code = 0 ∧ CauseAgrees State.reset ∧
  ∀ s t : State, CauseAgrees s → step s = .next t →
    CauseAgrees t ∧ t.cause.code ∈ [0#3, 1#3, 3#3, 4#3] ∧
    (s.cause ≠ .none → s.resetNow = none → t.cause = s.cause)

/-- The block never writes the input image: it changes only when the host's `reset` binds another one
(10_state.md section 5, 20_memory.md section 9; decision D19). -/
def Obligations.ImageIsNeverWritten : Prop :=
  ∀ s t : State, s.resetNow = none → step s = .next t → ∀ a, t.image.fetch a = s.image.fetch a

/-- The cursor never decreases, and every step in `Awaiting` ends the run or moves it on by 1 to 6 bytes without
reset (45_decode_loop.md sections 2 and 4). -/
def Obligations.CursorMovesForward : Prop :=
  ∀ s t : State, s.resetNow = none → step s = .next t →
    s.cursor ≤ t.cursor ∧ t.cursor ≤ s.cursor + 6 ∧
    (s.phase = .awaiting → Terminal t ∨ s.cursor < t.cursor)

/-- From reset, with `io_error` never asserted, the run is over after at most `N + 2` steps, whatever the image
(45_decode_loop.md section 4). -/
def Obligations.EveryRunEndsWithinItsBound : Prop :=
  ∀ bytes : List Byte, ∃ k ≤ bytes.length + 2, ∃ t, core.run k (runStart bytes) = .next t ∧ Terminal t

/-- From reset, with `io_error` never asserted, a run that is over consumed the whole image, or stopped at the
first byte of an instruction of which 1 to 5 bytes remain; in both cases the output is the header and the lines
of everything before the cursor (45_decode_loop.md section 4; decision D7). -/
def Obligations.RunEndsAtTheEndOrAtATruncatedInstruction : Prop :=
  ∀ (bytes : List Byte) (k : Nat) (t : State), core.run k (runStart bytes) = .next t → Terminal t →
    t.image.bytes = bytes ∧ Accounted t ∧
    ((t.phase = .exhausted ∧ t.cause = .endOfInput ∧ t.cursor = bytes.length) ∨
     (t.phase = .faulted ∧ t.cause = .truncatedStream ∧ t.cursor < bytes.length ∧
       bytes.length ≤ t.cursor + 5 ∧ decode (bytes.drop t.cursor) = .truncatedStream))

/-- An opcode-table word placed by the host runs as the very next instruction, whatever the state was (log entries
3 and 4). -/
def Obligations.PlacedWordRunsNext : Prop :=
  ∀ (s : State) (nbits w : Nat) (i : Instr), decodeTableWord nbits w = some i →
    step (s.withFetchWord nbits w) = exec i (s.withFetchWord nbits w)

/-! ### Encoding -/

/-- Decode and encode agree: a well-formed instruction, encoded and followed by any bytes (after the examined byte
of an unmapped `reg` sub-field, where there is one), decodes to itself and leaves those bytes
(30_encoding.md section 1). -/
def Obligations.DecodeOfEncode : Prop :=
  ∀ (i : Instr) (rest : List Byte), i.wf = true →
    decode (encode i ++ (lookahead i ++ rest)) = .ok i (lookahead i ++ rest)

/-- The other direction, the agreement of the sequential reader with the cursor's one move: what decodes is
well-formed, is the encoding of the bytes consumed, and exactly `instrLength` of them were consumed
(45_decode_loop.md section 4). -/
def Obligations.EncodeOfDecode : Prop :=
  ∀ (bytes : List Byte) (i : Instr) (rest : List Byte), decode bytes = .ok i rest →
    i.wf = true ∧ bytes = encode i ++ rest ∧ lookahead i <+: rest ∧ bytes.length = instrLength i + rest.length

/-- The decoder examines at most six bytes (45_decode_loop.md section 1; decision D3). -/
def Obligations.DecodeExaminesAtMostSixBytes : Prop :=
  ∀ bytes : List Byte,
    (∀ i rest, decode bytes = .ok i rest → decode (bytes.take 6) = .ok i (rest.take (6 - instrLength i))) ∧
    (decode bytes = .truncatedStream ↔ decode (bytes.take 6) = .truncatedStream) ∧
    (decode bytes = .truncatedStream → bytes.length < 6)

/-- The lengths of each format (30_encoding.md section 2, the length table). -/
def Obligations.LengthsByFormat : Prop :=
  ∀ (d sx w : Bool) (reg : RegIdx) (rm : RegMem) (imm : StreamField) (addr : Word) (b0 : Byte) (e : Option Byte),
    (∀ i ∈ [Instr.movRmReg d w reg rm, .addRmReg d w reg rm, .subRmReg d w reg rm, .cmpRmReg d w reg rm],
      i.wf = true → (encode i).length = 2 + dispLen rm.modBits rm.rmBits ∧ (encode i).length ≤ 4) ∧
    (∀ i ∈ [Instr.addRmImm sx w rm imm, .subRmImm sx w rm imm, .cmpRmImm sx w rm imm, .movRmImm w rm imm],
      i.wf = true → (encode i).length = 2 + dispLen rm.modBits rm.rmBits + (if imm.isWord then 2 else 1) ∧
        3 ≤ (encode i).length ∧ (encode i).length ≤ 6) ∧
    (∀ i ∈ [Instr.addRmImm sx w rm imm, .subRmImm sx w rm imm, .cmpRmImm sx w rm imm],
      i.wf = true → (imm.isWord = true ↔ sx = false ∧ w = true)) ∧
    ((Instr.movRmImm w rm imm).wf = true → imm.isWord = w) ∧
    ((Instr.movRegImm w reg imm).wf = true →
      imm.isWord = w ∧ (encode (.movRegImm w reg imm)).length = 1 + (if w then 2 else 1)) ∧
    (encode (.movAccMem w addr)).length = 3 ∧ (encode (.movMemAcc w addr)).length = 3 ∧
    (encode (.unrecognized b0 e)).length = 1

/-- Words written out from the spec's encodings decode to the instructions they stand for: the document's three
examples and one row of each other family (95_test_vectors.md). -/
def Obligations.SpecEncodingsDecode : Prop :=
  decode [0b10001001#8, 0b11011000#8] = .ok (.movRmReg false true 0b011#3 (.reg 0b000#3)) [] ∧
  decode [0b00000011#8, 0b11000001#8] = .ok (.addRmReg true true 0b000#3 (.reg 0b001#3)) [] ∧
  decode [0b10111000#8, 0x05#8, 0x00#8] = .ok (.movRegImm true 0b000#3 (.word 5#16)) [] ∧
  decode [0b11000110#8, 0b00000011#8, 0x07#8] =
    .ok (.movRmImm false (.indexed 0b011#3 none) (.byte 7#8)) [] ∧
  decode [0b10100011#8, 0xFA#8, 0x09#8] = .ok (.movMemAcc true 2554#16) [] ∧
  decode [0b10000001#8, 0b01101100#8, 0xFC#8, 0x00#8, 0x01#8] =
    .ok (.subRmImm false true (.indexed 0b100#3 (some (.byte 0xFC#8))) (.word 256#16)) [] ∧
  decode [0xF4#8] = .ok (.unrecognized 0xF4#8 none) []

/-- The complete map of the 256 leading bytes: which family each range selects, 42 recognized and 214 not
(30_encoding.md section 4; K1). -/
def Obligations.LeadingByteMap : Prop :=
  (∀ b0 : Byte, (classify b0 = .addRmReg ↔ b0.toNat ≤ 0x03) ∧
    (classify b0 = .subRmReg ↔ 0x28 ≤ b0.toNat ∧ b0.toNat ≤ 0x2B) ∧
    (classify b0 = .cmpRmReg ↔ 0x38 ≤ b0.toNat ∧ b0.toNat ≤ 0x3B) ∧
    (classify b0 = .arithImm ↔ 0x80 ≤ b0.toNat ∧ b0.toNat ≤ 0x83) ∧
    (classify b0 = .movRmReg ↔ 0x88 ≤ b0.toNat ∧ b0.toNat ≤ 0x8B) ∧
    (classify b0 = .movAccumulator ↔ 0xA0 ≤ b0.toNat ∧ b0.toNat ≤ 0xA3) ∧
    (classify b0 = .movRegImm ↔ 0xB0 ≤ b0.toNat ∧ b0.toNat ≤ 0xBF) ∧
    (classify b0 = .movRmImm ↔ 0xC6 ≤ b0.toNat ∧ b0.toNat ≤ 0xC7) ∧
    (classify b0 = .unrecognized ↔ UnmatchedLeadingByte b0)) ∧
  ((List.range 256).filter fun n => classify (BitVec.ofNat 8 n) != .unrecognized).length = 42

/-! ### Tables, reads and values -/

/-- Rules R68, R69 and R71 (K3; decision D14): the sixteen register names and the eight base expressions, by
index. -/
def Obligations.ConstantTableContents : Prop :=
  (List.range 8).map (fun i => regName false (BitVec.ofNat 3 i)) =
    [['a', 'l'], ['c', 'l'], ['d', 'l'], ['b', 'l'], ['a', 'h'], ['c', 'h'], ['d', 'h'], ['b', 'h']] ∧
  (List.range 8).map (fun i => regName true (BitVec.ofNat 3 i)) =
    [['a', 'x'], ['c', 'x'], ['d', 'x'], ['b', 'x'], ['s', 'p'], ['b', 'p'], ['s', 'i'], ['d', 'i']] ∧
  (List.range 8).map (fun r => eaBase (BitVec.ofNat 3 r)) = baseExpressions

/-- Rule R28 (decision D3): `MemRead(addr, n)` for `n` in 1, 2 gives the bytes in stream order when they all exist
and nothing otherwise, never fewer bytes. -/
def Obligations.MemReadIsAllOrNothing : Prop :=
  ∀ (bytes : List Byte) (addr n : Nat), n ∈ [1, 2] →
    (addr + n ≤ bytes.length → (Memory.ofBytes bytes).read addr n = some ((bytes.drop addr).take n)) ∧
    (bytes.length < addr + n → (Memory.ofBytes bytes).read addr n = none)

/-- Rule R30: `next_value` consumes exactly the bytes requested, low byte first, and nothing is answered when
exactly one byte of a 16-bit value is left. -/
def Obligations.NextValueReadsExactly : Prop :=
  ∀ (b lo hi : Byte) (rest : List Byte),
    nextValue false [] = none ∧ nextValue true [] = none ∧ nextValue true [b] = none ∧
    nextValue false (b :: rest) = some (b.toInt, rest) ∧
    nextValue true (lo :: hi :: rest) =
      some (if lo.toNat + 256 * hi.toNat < 32768 then ((lo.toNat + 256 * hi.toNat : Nat) : Int)
        else ((lo.toNat + 256 * hi.toNat : Nat) : Int) - 65536, rest)

/-- Rules R50, R73, R74 and R75: the displacement lengths of all 32 pairs, and the three cases of the addressing
resolver in terms of the operand they give, with the bytes each consumes. -/
def Obligations.AddressingResolverCases : Prop :=
  ∀ (w : Bool) (r_m : RegIdx) (bytes : List Byte),
    let answers := fun (md : BitVec 2) (r : RegIdx) =>
      (resolveRegMem md r bytes).map fun a => (regMemOperand w a.1, a.2)
    dispLen 0b00#2 r_m = (if r_m = 0b110#3 then 2 else 0) ∧ dispLen 0b01#2 r_m = 1 ∧
    dispLen 0b10#2 r_m = 2 ∧ dispLen 0b11#2 r_m = 0 ∧
    answers 0b11#2 r_m = some (.reg (regName w r_m), bytes) ∧
    (answers 0b00#2 0b110#3 = match bytes with
      | lo :: hi :: rest => some (.mem none ((lo.toNat + 256 * hi.toNat : Nat) : Int), rest)
      | _ => none) ∧
    (r_m ≠ 0b110#3 → answers 0b00#2 r_m = some (.mem (some (eaBase r_m)) 0, bytes)) ∧
    (answers 0b01#2 r_m = match bytes with
      | b :: rest => some (.mem (some (eaBase r_m)) b.toInt, rest)
      | [] => none) ∧
    (answers 0b10#2 r_m = match bytes with
      | lo :: hi :: rest => some (.mem (some (eaBase r_m)) (sext16 (lo.toNat + 256 * hi.toNat)), rest)
      | _ => none)

/-- The resolver is total and consumes exactly `disp_len` bytes: it answers nothing exactly when fewer are left
(40_operands.md section 4). -/
def Obligations.ResolverConsumesDispLen : Prop :=
  ∀ (md : BitVec 2) (r_m : RegIdx) (bytes : List Byte),
    (resolveRegMem md r_m bytes = none ↔ bytes.length < dispLen md r_m) ∧
    (∀ rm rest, resolveRegMem md r_m bytes = some (rm, rest) →
      rest = bytes.drop (dispLen md r_m) ∧ rm.wf = true ∧ rm.modBits = md ∧ rm.rmBits = r_m ∧
      (rm.isReg = true ↔ md = 0b11#2))

/-- Rule R99: sign extension of 8 to 16 bits, as a number and as the 16-bit pattern with bits 15:8 equal to
bit 7, and its two uses: an 8-bit displacement and an 8-bit immediate. -/
def Obligations.SignExtension : Prop :=
  ∀ b : Byte, sext8 b.toNat = (if b.toNat ≤ 0x7F then (b.toNat : Int) else b.toNat - 256) ∧
    (b.signExtend 16).toInt = sext8 b.toNat ∧ lowByte (b.signExtend 16) = b ∧
    highByte (b.signExtend 16) = (if b.getLsbD 7 then 0xFF#8 else 0x00#8) ∧
    (∀ (w : Bool) (r_m : RegIdx), regMemOperand w (.indexed r_m (some (.byte b))) =
      .mem (some (eaBase r_m)) (sext8 b.toNat)) ∧
    (∀ rest, nextValue false (b :: rest) = some (sext8 b.toNat, rest))

/-- Rule R79 (decision D11): the decimal numeral reads back as the number, in decimal digits, without a leading
zero. -/
def Obligations.DecimalNumeralsReadBack : Prop :=
  ∀ v : Nat, (dec v).foldl (fun a c => 10 * a + (c.toNat - '0'.toNat)) 0 = v ∧ isNumber (dec v) = true

/-- Redundant encodings print the same text as their canonical form (30_encoding.md section 4), each common text
named through the operands' texts: `d` only swaps a register pair; `RMI_MOV` with `mod = 11` prints like `RI`;
`0x82` prints and consumes like `0x80`; a displacement byte or word that was read and is zero prints nothing
beside any base (`bp` included), as `mod = 00` does for every `r_m` but `110`, where it is the direct
address. -/
def Obligations.RedundantEncodingsPrintAlike : Prop :=
  ∀ (d sx w : Bool) (r q : RegIdx) (rm : RegMem) (imm : StreamField) (s : State),
    PrintsRegisterPair ['m', 'o', 'v', ' '] w r q .movRmReg ∧
    PrintsRegisterPair ['a', 'd', 'd', ' '] w r q .addRmReg ∧
    PrintsRegisterPair ['s', 'u', 'b', ' '] w r q .subRmReg ∧
    PrintsRegisterPair ['c', 'm', 'p', ' '] w r q .cmpRmReg ∧
    (∀ i ∈ [Instr.movRmImm w (.reg r) imm, .movRegImm w r imm],
      instrText i = twoOperands ['m', 'o', 'v', ' '] (regName w r) (immText imm)) ∧
    (∀ x : Bool,
      exec (.addRmImm x false rm imm) s = .next (emits s
        (twoOperands ['a', 'd', 'd', ' '] (destText false rm) (immText imm)) (3 + dispLen rm.modBits rm.rmBits)) ∧
      exec (.subRmImm x false rm imm) s = .next (emits s
        (twoOperands ['s', 'u', 'b', ' '] (destText false rm) (immText imm)) (3 + dispLen rm.modBits rm.rmBits)) ∧
      exec (.cmpRmImm x false rm imm) s = .next (emits s
        (twoOperands ['c', 'm', 'p', ' '] (destText false rm) (immText imm)) (3 + dispLen rm.modBits rm.rmBits))) ∧
    PrintsBaseAlone d sx w q r imm (some (.byte 0#8)) ∧
    PrintsBaseAlone d sx w q r imm (some (.word 0#16)) ∧
    (r ≠ 0b110#3 → PrintsBaseAlone d sx w q r imm none)

/-- Invariants of the emitted lines (40_operands.md section 7): at most one bracketed operand; with `mod = 11`, and in
the format with a register in the leading byte, no bracket and no number other than the immediate; every line
is at most 35 characters long, and that length is reached. -/
def Obligations.EmittedLinesAreShortAndHaveOneBracket : Prop :=
  (∀ i : Instr, (instrText i).length ≤ 35 ∧ (instrText i).count '[' ≤ 1) ∧
  (∀ (d w : Bool) (reg r : RegIdx),
    ∀ i ∈ [Instr.movRmReg d w reg (.reg r), .addRmReg d w reg (.reg r), .subRmReg d w reg (.reg r),
      .cmpRmReg d w reg (.reg r)], '[' ∉ instrText i ∧ ∀ c ∈ instrText i, isDigit c = false) ∧
  (∀ (sx w : Bool) (r : RegIdx) (imm : StreamField),
    ∀ i ∈ [Instr.movRmImm w (.reg r) imm, .addRmImm sx w (.reg r) imm, .subRmImm sx w (.reg r) imm,
      .cmpRmImm sx w (.reg r) imm, .movRegImm w r imm],
      '[' ∉ instrText i ∧
      ∃ before, (∀ c ∈ before, isDigit c = false) ∧ instrText i = before ++ immText imm ++ ['\n']) ∧
  (∃ i : Instr, i.wf = true ∧ (instrText i).length = 35)
end

