-- ==== Sys2Proof/Laws/Decode.lean ====
section
/-! SUPPORT. The laws of the encoding: bytes and their fields, the classifier on the leading bytes the encoder
writes, one lemma per read of the decoder. -/

namespace Sys2Proof

open Sys2Proof.Machine

/-! ### Bytes and fields -/

/-- The value of a 16-bit field is `lo + 256 * hi` (rule R32). -/
theorem toNat_wordOfBytes (lo hi : Byte) : (wordOfBytes lo hi).toNat = lo.toNat + 256 * hi.toNat := by
  refine (BitVec.toNat_append hi lo).trans ?_
  rw [← Nat.shiftLeft_add_eq_or_of_lt lo.isLt, Nat.shiftLeft_eq]
  omega

theorem toNat_lowByte (v : Word) : (lowByte v).toNat = v.toNat % 256 := by
  simp [lowByte]

theorem toNat_highByte (v : Word) : (highByte v).toNat = v.toNat / 256 := by
  have := v.isLt
  simp [highByte, Nat.shiftRight_eq_div_pow]
  omega

@[simp] theorem wordOfBytes_lowByte_highByte (v : Word) : wordOfBytes (lowByte v) (highByte v) = v := by
  apply BitVec.eq_of_toNat_eq
  rw [toNat_wordOfBytes, toNat_lowByte, toNat_highByte]
  omega

@[simp] theorem lowByte_wordOfBytes (lo hi : Byte) : lowByte (wordOfBytes lo hi) = lo := by
  apply BitVec.eq_of_toNat_eq
  have := lo.isLt
  rw [toNat_lowByte, toNat_wordOfBytes]
  omega

@[simp] theorem highByte_wordOfBytes (lo hi : Byte) : highByte (wordOfBytes lo hi) = hi := by
  apply BitVec.eq_of_toNat_eq
  have := lo.isLt
  rw [toNat_highByte, toNat_wordOfBytes]
  omega

@[simp] theorem wordBytes_wordOfBytes (lo hi : Byte) : wordBytes (wordOfBytes lo hi) = [lo, hi] := by
  simp [wordBytes]

@[simp] theorem modField_modRegRm (md : BitVec 2) (reg r_m : RegIdx) : modField (modRegRm md reg r_m) = md := by
  revert md reg r_m; decide

@[simp] theorem regField_modRegRm (md : BitVec 2) (reg r_m : RegIdx) : regField (modRegRm md reg r_m) = reg := by
  revert md reg r_m; decide

@[simp] theorem rmField_modRegRm (md : BitVec 2) (reg r_m : RegIdx) : rmField (modRegRm md reg r_m) = r_m := by
  revert md reg r_m; decide

/-- The split of `b1` loses nothing (rule R49). -/
theorem modRegRm_fields (b1 : Byte) : modRegRm (modField b1) (regField b1) (rmField b1) = b1 := by
  revert b1; decide

/-! ### The classifier on the leading bytes of the encoder -/

section
variable (x w : Bool) (reg : RegIdx)

@[simp] theorem classify_movRmReg : classify (leadingByte6 0b100010#6 x w) = .movRmReg := by
  revert x w; decide
@[simp] theorem classify_addRmReg : classify (leadingByte6 0b000000#6 x w) = .addRmReg := by
  revert x w; decide
@[simp] theorem classify_subRmReg : classify (leadingByte6 0b001010#6 x w) = .subRmReg := by
  revert x w; decide
@[simp] theorem classify_cmpRmReg : classify (leadingByte6 0b001110#6 x w) = .cmpRmReg := by
  revert x w; decide
@[simp] theorem classify_arithImm : classify (leadingByte6 0b100000#6 x w) = .arithImm := by
  revert x w; decide
@[simp] theorem classify_movAccumulator : classify (leadingByte6 0b101000#6 x w) = .movAccumulator := by
  revert x w; decide
@[simp] theorem classify_movRmImm : classify (leadingByte7 0b1100011#7 w) = .movRmImm := by
  revert w; decide
@[simp] theorem classify_movRegImm : classify (leadingByteRi w reg) = .movRegImm := by
  revert w reg; decide

@[simp] theorem directionFlag_leadingByte6 (p : BitVec 6) : directionFlag (leadingByte6 p x w) = x := by
  revert p x w; decide
@[simp] theorem signExtendFlag_leadingByte6 (p : BitVec 6) : signExtendFlag (leadingByte6 p x w) = x := by
  revert p x w; decide
@[simp] theorem wordFlag_leadingByte6 (p : BitVec 6) : wordFlag (leadingByte6 p x w) = w := by
  revert p x w; decide
@[simp] theorem wordFlag_leadingByte7 (p : BitVec 7) : wordFlag (leadingByte7 p w) = w := by
  revert p w; decide
@[simp] theorem regImmWordFlag_leadingByteRi : regImmWordFlag (leadingByteRi w reg) = w := by
  revert w reg; decide
@[simp] theorem regImmField_leadingByteRi : regImmField (leadingByteRi w reg) = reg := by
  revert w reg; decide
end

/-! ### A leading byte of a family is the byte the encoder writes from its flags -/

theorem leadingByte_of_movRmReg : ∀ b0 : Byte, classify b0 = .movRmReg →
    leadingByte6 0b100010#6 (directionFlag b0) (wordFlag b0) = b0 := by decide
theorem leadingByte_of_addRmReg : ∀ b0 : Byte, classify b0 = .addRmReg →
    leadingByte6 0b000000#6 (directionFlag b0) (wordFlag b0) = b0 := by decide
theorem leadingByte_of_subRmReg : ∀ b0 : Byte, classify b0 = .subRmReg →
    leadingByte6 0b001010#6 (directionFlag b0) (wordFlag b0) = b0 := by decide
theorem leadingByte_of_cmpRmReg : ∀ b0 : Byte, classify b0 = .cmpRmReg →
    leadingByte6 0b001110#6 (directionFlag b0) (wordFlag b0) = b0 := by decide
theorem leadingByte_of_arithImm : ∀ b0 : Byte, classify b0 = .arithImm →
    leadingByte6 0b100000#6 (signExtendFlag b0) (wordFlag b0) = b0 := by decide
theorem leadingByte_of_movAccumulator : ∀ b0 : Byte, classify b0 = .movAccumulator →
    leadingByte6 0b101000#6 (directionFlag b0) (wordFlag b0) = b0 := by decide
theorem leadingByte_of_movRmImm : ∀ b0 : Byte, classify b0 = .movRmImm →
    leadingByte7 0b1100011#7 (wordFlag b0) = b0 := by decide
theorem leadingByte_of_movRegImm : ∀ b0 : Byte, classify b0 = .movRegImm →
    leadingByteRi (regImmWordFlag b0) (regImmField b0) = b0 := by decide

/-! ### The reads -/

@[simp] theorem nextByte_cons (b : Byte) (rest : List Byte) : nextByte (b :: rest) = some (b, rest) := rfl

@[simp] theorem nextWord_cons_cons (lo hi : Byte) (rest : List Byte) :
    nextWord (lo :: hi :: rest) = some (wordOfBytes lo hi, rest) := rfl

/-- What `next_byte` can answer. -/
theorem nextByte_eq_some_iff (bytes : List Byte) (b : Byte) (rest : List Byte) :
    nextByte bytes = some (b, rest) ↔ bytes = b :: rest := by
  cases bytes <;> simp [nextByte]

theorem nextByte_eq_none_iff (bytes : List Byte) : nextByte bytes = none ↔ bytes = [] := by
  cases bytes <;> simp [nextByte]

@[simp] theorem nextWord_wordBytes (v : Word) (rest : List Byte) : nextWord (wordBytes v ++ rest) = some (v, rest) := by
  simp [wordBytes, nextWord]

/-- What a 16-bit read can answer: it consumes exactly its two bytes. -/
theorem nextWord_eq_some_iff (bytes : List Byte) (v : Word) (rest : List Byte) :
    nextWord bytes = some (v, rest) ↔ bytes = wordBytes v ++ rest := by
  match bytes with
  | [] => simp [nextWord, wordBytes]
  | [_] => simp [nextWord, wordBytes]
  | lo :: hi :: tl =>
    simp only [nextWord, wordBytes, Option.some.injEq, Prod.mk.injEq, List.cons_append, List.nil_append,
      List.cons.injEq]
    constructor
    · rintro ⟨rfl, rfl⟩; simp
    · rintro ⟨rfl, rfl, rfl⟩; simp

/-- A 16-bit read finds the end of the stream exactly when fewer than two bytes are left (rule R31). -/
theorem nextWord_eq_none_iff (bytes : List Byte) : nextWord bytes = none ↔ bytes.length < 2 := by
  match bytes with
  | [] => simp [nextWord]
  | [_] => simp [nextWord]
  | _ :: _ :: _ => simp [nextWord]

theorem length_bytes_field (f : StreamField) : f.bytes.length = immLen f.isWord := by
  cases f <;> rfl

/-- What a field read can answer: a field of the requested width, and exactly its bytes consumed. -/
theorem nextField_eq_some_iff (word : Bool) (bytes : List Byte) (f : StreamField) (rest : List Byte) :
    nextField word bytes = some (f, rest) ↔ f.isWord = word ∧ bytes = f.bytes ++ rest := by
  cases word with
  | false =>
    cases f with
    | byte b => cases bytes <;> simp [nextField, nextByte, StreamField.isWord, StreamField.bytes]
    | word v => cases bytes <;> simp [nextField, nextByte, StreamField.isWord]
  | true =>
    cases f with
    | byte b => simp [nextField, StreamField.isWord]
    | word v =>
      simp only [nextField, if_true, StreamField.isWord, StreamField.bytes, true_and, ← nextWord_eq_some_iff]
      cases nextWord bytes with
      | none => simp
      | some r => obtain ⟨v', r'⟩ := r; simp

/-- A field read finds the end of the stream exactly when fewer bytes are left than its width. -/
theorem nextField_eq_none_iff (word : Bool) (bytes : List Byte) :
    nextField word bytes = none ↔ bytes.length < immLen word := by
  cases word with
  | false => cases bytes <;> simp [nextField, nextByte, immLen]
  | true => simp [nextField, nextWord_eq_none_iff, immLen]

/-! ### The addressing resolver -/

theorem length_dispBytes (rm : RegMem) (h : rm.wf = true) :
    rm.dispBytes.length = dispLen rm.modBits rm.rmBits := by
  match rm with
  | .reg _ => rfl
  | .direct _ => rfl
  | .indexed r none =>
    have h6 : r ≠ 6#3 := by simpa [RegMem.wf] using h
    simp [RegMem.dispBytes, RegMem.modBits, RegMem.rmBits, dispLen, h6]
  | .indexed _ (some (.byte _)) => rfl
  | .indexed _ (some (.word _)) => rfl

/-- The resolver reads back the operand the encoder wrote (rules R73 to R75). -/
@[simp] theorem resolveRegMem_dispBytes (rm : RegMem) (h : rm.wf = true) (rest : List Byte) :
    resolveRegMem rm.modBits rm.rmBits (rm.dispBytes ++ rest) = some (rm, rest) := by
  match rm with
  | .reg _ => rfl
  | .direct addr => simp [resolveRegMem, RegMem.modBits, RegMem.rmBits, RegMem.dispBytes]
  | .indexed r none =>
    have h6 : r ≠ 6#3 := by simpa [RegMem.wf] using h
    simp [resolveRegMem, RegMem.modBits, RegMem.rmBits, RegMem.dispBytes, h6]
  | .indexed r (some (.byte b)) => rfl
  | .indexed r (some (.word v)) =>
    simp [resolveRegMem, RegMem.modBits, RegMem.rmBits, RegMem.dispBytes, StreamField.bytes, nextField]

/-- What the resolver can answer: a well-formed operand whose sub-fields are the ones it was given, and exactly
its displacement bytes consumed (rules R50, R73 to R76). -/
theorem resolveRegMem_eq_some (md : BitVec 2) (r_m : RegIdx) (bytes : List Byte) (rm : RegMem) (rest : List Byte)
    (h : resolveRegMem md r_m bytes = some (rm, rest)) :
    rm.wf = true ∧ rm.modBits = md ∧ rm.rmBits = r_m ∧ bytes = rm.dispBytes ++ rest := by
  unfold resolveRegMem at h
  split at h
  · rename_i h3
    obtain ⟨rfl, rfl⟩ : RegMem.reg r_m = rm ∧ bytes = rest := by simpa using h
    exact ⟨rfl, h3.symm, rfl, rfl⟩
  · split at h
    · rename_i h0
      split at h
      · rename_i h6
        cases hw : nextWord bytes with
        | none => simp [hw] at h
        | some r =>
          obtain ⟨v, r'⟩ := r
          obtain ⟨rfl, rfl⟩ : RegMem.direct v = rm ∧ r' = rest := by simpa [hw] using h
          exact ⟨rfl, h0.symm, h6.symm, (nextWord_eq_some_iff _ _ _).1 hw⟩
      · rename_i h6
        obtain ⟨rfl, rfl⟩ : RegMem.indexed r_m none = rm ∧ bytes = rest := by simpa using h
        exact ⟨by simpa [RegMem.wf] using h6, h0.symm, rfl, rfl⟩
    · rename_i h3 h0
      cases hw : nextField (md == 2#2) bytes with
      | none => simp [hw] at h
      | some r =>
        obtain ⟨f, r'⟩ := r
        obtain ⟨rfl, rfl⟩ : RegMem.indexed r_m (some f) = rm ∧ r' = rest := by simpa [hw] using h
        obtain ⟨hf, hb⟩ := (nextField_eq_some_iff _ _ _ _).1 hw
        refine ⟨by simp [RegMem.wf], ?_, rfl, by simpa [RegMem.dispBytes] using hb⟩
        have hmd : ∀ md : BitVec 2, md ≠ 3#2 → md ≠ 0#2 → md = if (md == 2#2) = true then 2#2 else 1#2 := by decide
        cases f with
        | byte b => simpa [← hf, RegMem.modBits, StreamField.isWord] using (hmd md h3 h0).symm
        | word v => simpa [← hf, RegMem.modBits, StreamField.isWord] using (hmd md h3 h0).symm

/-- The resolver finds the end of the stream exactly when fewer bytes are left than `disp_len` (rules R31,
R50). -/
theorem resolveRegMem_eq_none_iff (md : BitVec 2) (r_m : RegIdx) (bytes : List Byte) :
    resolveRegMem md r_m bytes = none ↔ bytes.length < dispLen md r_m := by
  unfold resolveRegMem dispLen
  by_cases h3 : md = 3#2
  · simp [h3]
  · by_cases h0 : md = 0#2
    · by_cases h6 : r_m = 6#3
      · simp [h0, h6, nextWord_eq_none_iff]
      · simp [h0, h6]
    · have hmd : md = 1#2 ∨ md = 2#2 := by revert md; decide
      rcases hmd with rfl | rfl
      · simp [nextField_eq_none_iff, immLen]
      · simp [nextField_eq_none_iff, immLen]

/-- The bytes of an encoded operand with its `b1`. -/
theorem length_encodeRegMem (reg : RegIdx) (rm : RegMem) (h : rm.wf = true) :
    (encodeRegMem reg rm).length = 1 + dispLen rm.modBits rm.rmBits := by
  simp [encodeRegMem, length_dispBytes rm h, Nat.add_comm]

end Sys2Proof
end

