-- ==== Sys2Proof/Laws/Formats.lean ====
section
/-! SUPPORT. One lemma per format of the decoder: what it answers when it answers an instruction, and that it
reads back what the encoder writes. -/

namespace Sys2Proof

open Sys2Proof.Machine

theorem afterRead_eq_ok_iff {α : Type} (read : Option α) (next : α → Decoded) (i : Instr) (rest : List Byte) :
    Decoded.afterRead read next = .ok i rest ↔ ∃ a, read = some a ∧ next a = .ok i rest := by
  cases read <;> simp [Decoded.afterRead]

@[simp] theorem afterRead_some {α : Type} (a : α) (next : α → Decoded) : Decoded.afterRead (some a) next = next a := rfl

@[simp] theorem afterRead_none {α : Type} (next : α → Decoded) : Decoded.afterRead none next = .truncatedStream := rfl

theorem afterRead_ne_endOfInput {α : Type} (read : Option α) (next : α → Decoded) (h : ∀ a, next a ≠ .endOfInput) :
    Decoded.afterRead read next ≠ .endOfInput := by
  cases read with
  | none => simp
  | some a => simpa using h a

/-- The end of the stream is answered exactly when there is no leading byte (rule R106). -/
theorem decode_eq_endOfInput_iff (bytes : List Byte) : decode bytes = .endOfInput ↔ bytes = [] := by
  have rmr : ∀ mk bs, decodeRmr mk bs ≠ .endOfInput := fun mk bs =>
    afterRead_ne_endOfInput _ _ fun _ => afterRead_ne_endOfInput _ _ fun _ => by simp
  have tail : ∀ mk wd b1 bs, decodeRmiTail mk wd b1 bs ≠ .endOfInput := fun mk wd b1 bs =>
    afterRead_ne_endOfInput _ _ fun _ => afterRead_ne_endOfInput _ _ fun _ => by simp
  have mov : ∀ b0 bs, decodeRmiMov b0 bs ≠ .endOfInput := fun b0 bs =>
    afterRead_ne_endOfInput _ _ fun ⟨b1, r1⟩ => by
      simp only; split
      · exact tail _ _ _ _
      · simp
  have arith : ∀ b0 bs, decodeRmiArith b0 bs ≠ .endOfInput := fun b0 bs =>
    afterRead_ne_endOfInput _ _ fun ⟨b1, r1⟩ => by
      simp only; split
      · exact tail _ _ _ _
      · simp
  have ri : ∀ b0 bs, decodeRi b0 bs ≠ .endOfInput := fun b0 bs => afterRead_ne_endOfInput _ _ fun _ => by simp
  have ma : ∀ b0 bs, decodeMa b0 bs ≠ .endOfInput := fun b0 bs => afterRead_ne_endOfInput _ _ fun _ => by simp
  cases bytes with
  | nil => simp [decode, nextByte]
  | cons b0 rest =>
    simp only [decode, nextByte_cons, reduceCtorEq, iff_false]
    cases classify b0 <;> simp [rmr, mov, arith, ri, ma]

/-- Format RMR reads back what the encoder writes. -/
theorem decodeRmr_encodeRegMem (mk : RegIdx → RegMem → Instr) (reg : RegIdx) (rm : RegMem) (h : rm.wf = true)
    (rest : List Byte) : decodeRmr mk (encodeRegMem reg rm ++ rest) = .ok (mk reg rm) rest := by
  simp [decodeRmr, encodeRegMem, h]

/-- What format RMR answers: `b1` and the displacement of a well-formed operand, and the bytes after them. -/
theorem decodeRmr_eq_ok (mk : RegIdx → RegMem → Instr) (bytes : List Byte) (i : Instr) (rest : List Byte)
    (h : decodeRmr mk bytes = .ok i rest) :
    ∃ reg rm, rm.wf = true ∧ i = mk reg rm ∧ bytes = encodeRegMem reg rm ++ rest := by
  obtain ⟨⟨b1, r1⟩, hb, h1⟩ := (afterRead_eq_ok_iff _ _ _ _).1 h
  obtain ⟨⟨rm, r2⟩, hr, h2⟩ := (afterRead_eq_ok_iff _ _ _ _).1 h1
  obtain rfl := (nextByte_eq_some_iff _ _ _).1 hb
  obtain ⟨hwf, hm, hrm, rfl⟩ := resolveRegMem_eq_some _ _ _ _ _ hr
  obtain ⟨rfl, rfl⟩ : mk (regField b1) rm = i ∧ r2 = rest := by simpa using h2
  exact ⟨regField b1, rm, hwf, rfl, by simp [encodeRegMem, hm, hrm, modRegRm_fields]⟩

/-- The tail of the immediate formats reads back what the encoder writes. -/
theorem decodeRmiTail_encode (mk : RegMem → StreamField → Instr) (reg : RegIdx) (rm : RegMem) (imm : StreamField)
    (h : rm.wf = true) (rest : List Byte) :
    decodeRmiTail mk imm.isWord (modRegRm rm.modBits reg rm.rmBits) (rm.dispBytes ++ (imm.bytes ++ rest)) =
      .ok (mk rm imm) rest := by
  have hf : nextField imm.isWord (imm.bytes ++ rest) = some (imm, rest) :=
    (nextField_eq_some_iff _ _ _ _).2 ⟨rfl, rfl⟩
  simp [decodeRmiTail, h, hf]

/-- What the tail of the immediate formats answers. -/
theorem decodeRmiTail_eq_ok (mk : RegMem → StreamField → Instr) (wd : Bool) (b1 : Byte) (bytes : List Byte) (i : Instr)
    (rest : List Byte) (h : decodeRmiTail mk wd b1 bytes = .ok i rest) :
    ∃ rm imm, rm.wf = true ∧ imm.isWord = wd ∧ i = mk rm imm ∧
      b1 :: bytes = encodeRegMem (regField b1) rm ++ imm.bytes ++ rest := by
  obtain ⟨⟨rm, r1⟩, hr, h1⟩ := (afterRead_eq_ok_iff _ _ _ _).1 h
  obtain ⟨⟨imm, r2⟩, hf, h2⟩ := (afterRead_eq_ok_iff _ _ _ _).1 h1
  obtain ⟨hwf, hm, hrm, rfl⟩ := resolveRegMem_eq_some _ _ _ _ _ hr
  obtain ⟨hw, rfl⟩ := (nextField_eq_some_iff _ _ _ _).1 hf
  obtain ⟨rfl, rfl⟩ : mk rm imm = i ∧ r2 = rest := by simpa using h2
  exact ⟨rm, imm, hwf, hw, rfl, by simp [encodeRegMem, hm, hrm, modRegRm_fields]⟩

/-- What format RMI_MOV answers: an instruction with `reg = 000`, or the fallback with `b1` left in the
stream. -/
theorem decodeRmiMov_eq_ok (b0 : Byte) (bytes : List Byte) (i : Instr) (rest : List Byte)
    (h : decodeRmiMov b0 bytes = .ok i rest) :
    (∃ rm imm, rm.wf = true ∧ imm.isWord = wordFlag b0 ∧ i = .movRmImm (wordFlag b0) rm imm ∧
      bytes = encodeRegMem 0#3 rm ++ imm.bytes ++ rest) ∨
    (∃ b1 tl, bytes = b1 :: tl ∧ movImmMapped (regField b1) = false ∧ i = .unrecognized b0 (some b1) ∧
      rest = bytes) := by
  obtain ⟨⟨b1, r1⟩, hb, h1⟩ := (afterRead_eq_ok_iff _ _ _ _).1 h
  clear h
  obtain rfl := (nextByte_eq_some_iff _ _ _).1 hb
  simp only at h1
  split at h1
  · rename_i hm
    obtain ⟨rm, imm, hwf, hw, rfl, hb⟩ := decodeRmiTail_eq_ok _ _ _ _ _ _ h1
    have h0 : regField b1 = 0#3 := by simpa [movImmMapped] using hm
    rw [h0] at hb
    exact .inl ⟨rm, imm, hwf, hw, rfl, hb⟩
  · rename_i hm
    obtain ⟨rfl, rfl⟩ : Instr.unrecognized b0 (some b1) = i ∧ b1 :: r1 = rest := by simpa using h1
    exact .inr ⟨b1, r1, rfl, by simpa using hm, rfl, rfl⟩

/-- The `reg` sub-field a mnemonic of format RMI_ARITH stands for (rule R56). -/
def arithReg : ArithOp → RegIdx
  | .add => 0#3
  | .sub => 5#3
  | .cmp => 7#3

theorem arithOp_eq_some_iff (reg : RegIdx) (op : ArithOp) : arithOp reg = some op ↔ reg = arithReg op := by
  cases op <;> (revert reg; decide)

/-- What format RMI_ARITH answers. -/
theorem decodeRmiArith_eq_ok (b0 : Byte) (bytes : List Byte) (i : Instr) (rest : List Byte)
    (h : decodeRmiArith b0 bytes = .ok i rest) :
    (∃ op rm imm, rm.wf = true ∧ imm.isWord = wordData (signExtendFlag b0) (wordFlag b0) ∧
      i = arithInstr op (signExtendFlag b0) (wordFlag b0) rm imm ∧
      bytes = encodeRegMem (arithReg op) rm ++ imm.bytes ++ rest) ∨
    (∃ b1 tl, bytes = b1 :: tl ∧ arithOp (regField b1) = none ∧ i = .unrecognized b0 (some b1) ∧ rest = bytes) := by
  obtain ⟨⟨b1, r1⟩, hb, h1⟩ := (afterRead_eq_ok_iff _ _ _ _).1 h
  clear h
  obtain rfl := (nextByte_eq_some_iff _ _ _).1 hb
  simp only at h1
  split at h1
  · rename_i op hop
    obtain ⟨rm, imm, hwf, hw, rfl, hb⟩ := decodeRmiTail_eq_ok _ _ _ _ _ _ h1
    rw [(arithOp_eq_some_iff _ _).1 hop] at hb
    exact .inl ⟨op, rm, imm, hwf, hw, rfl, hb⟩
  · rename_i hop
    obtain ⟨rfl, rfl⟩ : Instr.unrecognized b0 (some b1) = i ∧ b1 :: r1 = rest := by simpa using h1
    exact .inr ⟨b1, r1, rfl, hop, rfl, rfl⟩

/-- What format RI answers. -/
theorem decodeRi_eq_ok (b0 : Byte) (bytes : List Byte) (i : Instr) (rest : List Byte)
    (h : decodeRi b0 bytes = .ok i rest) :
    ∃ imm, imm.isWord = regImmWordFlag b0 ∧ i = .movRegImm (regImmWordFlag b0) (regImmField b0) imm ∧
      bytes = imm.bytes ++ rest := by
  obtain ⟨⟨imm, r1⟩, hf, h1⟩ := (afterRead_eq_ok_iff _ _ _ _).1 h
  obtain ⟨hw, rfl⟩ := (nextField_eq_some_iff _ _ _ _).1 hf
  obtain ⟨rfl, rfl⟩ : Instr.movRegImm (regImmWordFlag b0) (regImmField b0) imm = i ∧ r1 = rest := by simpa using h1
  exact ⟨imm, hw, rfl, rfl⟩

/-- What format MA answers. -/
theorem decodeMa_eq_ok (b0 : Byte) (bytes : List Byte) (i : Instr) (rest : List Byte)
    (h : decodeMa b0 bytes = .ok i rest) :
    ∃ addr, i = (if directionFlag b0 then .movMemAcc (wordFlag b0) addr else .movAccMem (wordFlag b0) addr) ∧
      bytes = wordBytes addr ++ rest := by
  obtain ⟨⟨addr, r1⟩, hf, h1⟩ := (afterRead_eq_ok_iff _ _ _ _).1 h
  have hb := (nextWord_eq_some_iff _ _ _).1 hf
  have h' := Decoded.ok.inj h1
  exact ⟨addr, h'.1.symm, by rw [hb, h'.2]⟩

end Sys2Proof
end

