-- ==== Sys2Proof/Laws/Memory.lean ====
section
/-! SUPPORT. The laws of the input image: reading after putting, the canonical form and every operation that
keeps it, and what the reads answer on a canonical image. -/

namespace Sys2Proof.Machine.Memory

/-! ### Reading after putting -/

@[simp] theorem fetch_nil (a : Nat) : Memory.fetch [] a = none := rfl

theorem fetch_cons (k : Nat) (v : Byte) (rest : Memory) (a : Nat) :
    Memory.fetch ((k, v) :: rest) a = if a = k then some v else Memory.fetch rest a := by
  by_cases h : a = k
  · subst h; simp [Memory.fetch, List.lookup]
  · have : (a == k) = false := by simpa using h
    simp [Memory.fetch, List.lookup, this, h]

@[simp] theorem fetch_put_same (m : Memory) (a : Nat) (b : Byte) : (m.put a b).fetch a = some b := by
  induction m with
  | nil => simp [Memory.put, fetch_cons]
  | cons c rest ih =>
    obtain ⟨k, v⟩ := c
    simp only [Memory.put]
    split
    · simp [fetch_cons]
    · split
      · simp [fetch_cons]
      · rename_i h1 h2
        simp [fetch_cons, h2, ih]

@[simp] theorem fetch_put_other (m : Memory) {a a' : Nat} (b : Byte) (h : a' ≠ a) :
    (m.put a b).fetch a' = m.fetch a' := by
  induction m with
  | nil => simp [Memory.put, fetch_cons, h]
  | cons c rest ih =>
    obtain ⟨k, v⟩ := c
    simp only [Memory.put]
    split
    · simp [fetch_cons, h]
    · split
      · rename_i h1 h2
        subst h2
        simp [fetch_cons, h]
      · simp [fetch_cons, ih]

/-- A put of consecutive bytes leaves every other offset alone. -/
theorem fetch_putBytes_outside (bs : List Byte) (m : Memory) (a x : Nat) (h : x < a ∨ a + bs.length ≤ x) :
    (m.putBytes a bs).fetch x = m.fetch x := by
  induction bs generalizing m a with
  | nil => rfl
  | cons b bs ih =>
    simp only [List.length_cons] at h
    rw [Memory.putBytes, ih _ _ (by omega), fetch_put_other _ _ (by omega)]

/-- A put of consecutive bytes is read back. -/
theorem fetch_putBytes_inside (bs : List Byte) (m : Memory) (a k : Nat) (h : k < bs.length) :
    (m.putBytes a bs).fetch (a + k) = bs[k]? := by
  induction bs generalizing m a k with
  | nil => simp at h
  | cons b bs ih =>
    rw [Memory.putBytes]
    cases k with
    | zero => rw [fetch_putBytes_outside _ _ _ _ (by omega)]; simp
    | succ k =>
      have := ih (m.put a b) (a + 1) k (by simpa using h)
      rw [Nat.add_assoc, Nat.add_comm 1 k] at this
      simpa using this

/-! ### The canonical form -/

theorem wf_iff (m : Memory) : m.wf = true ↔ m.map Prod.fst = List.range m.length := by
  simp [Memory.wf]

@[simp] theorem wf_nil : Memory.wf [] = true := rfl

theorem map_fst_ofBytesAt (bs : List Byte) (a : Nat) :
    (Memory.ofBytesAt a bs).map Prod.fst = List.range' a bs.length := by
  induction bs generalizing a with
  | nil => rfl
  | cons b bs ih => simp [Memory.ofBytesAt, ih, List.range'_succ]

@[simp] theorem bytes_ofBytesAt (bs : List Byte) (a : Nat) : (Memory.ofBytesAt a bs).bytes = bs := by
  induction bs generalizing a with
  | nil => rfl
  | cons b bs ih => simpa [Memory.ofBytesAt, Memory.bytes] using ih (a + 1)

@[simp] theorem length_ofBytesAt (bs : List Byte) (a : Nat) : (Memory.ofBytesAt a bs).length = bs.length := by
  induction bs generalizing a with
  | nil => rfl
  | cons b bs ih => simp [Memory.ofBytesAt, ih]

/-- The image the host supplies is canonical. -/
@[simp] theorem wf_ofBytes (bs : List Byte) : (Memory.ofBytes bs).wf = true := by
  rw [wf_iff, Memory.ofBytes, map_fst_ofBytesAt, length_ofBytesAt, List.range_eq_range']

@[simp] theorem bytes_ofBytes (bs : List Byte) : (Memory.ofBytes bs).bytes = bs := bytes_ofBytesAt bs 0

@[simp] theorem size_ofBytes (bs : List Byte) : (Memory.ofBytes bs).size = bs.length := length_ofBytesAt bs 0

@[simp] theorem length_bytes (m : Memory) : m.bytes.length = m.size := by simp [Memory.bytes, Memory.size]

/-- A canonical image is the image of its bytes: equal byte sequences are equal images. -/
theorem eq_ofBytes_of_wf (m : Memory) (h : m.wf = true) : m = Memory.ofBytes m.bytes := by
  have key : ∀ (m : Memory) (a : Nat), m.map Prod.fst = List.range' a m.length →
      m = Memory.ofBytesAt a (m.map Prod.snd) := by
    intro m
    induction m with
    | nil => intro a _; rfl
    | cons c rest ih =>
      intro a ha
      obtain ⟨k, v⟩ := c
      simp only [List.map_cons, List.length_cons, List.range'_succ, List.cons.injEq] at ha
      obtain ⟨rfl, hr⟩ := ha
      simp [Memory.ofBytesAt, ← ih _ hr]
  rw [wf_iff, List.range_eq_range'] at h
  exact key m 0 h

theorem fetch_ofBytesAt (bs : List Byte) (a k : Nat) : (Memory.ofBytesAt a bs).fetch (a + k) = bs[k]? := by
  induction bs generalizing a k with
  | nil => simp [Memory.ofBytesAt]
  | cons b bs ih =>
    cases k with
    | zero => simp [Memory.ofBytesAt, fetch_cons]
    | succ k =>
      rw [Memory.ofBytesAt, fetch_cons, if_neg (by omega)]
      have := ih (a + 1) k
      rw [Nat.add_assoc, Nat.add_comm 1 k] at this
      simpa using this

/-- On a canonical image a fetch is the indexed byte, and nothing from `N` on (rule R28). -/
theorem fetch_of_wf (m : Memory) (h : m.wf = true) (a : Nat) : m.fetch a = m.bytes[a]? := by
  have := fetch_ofBytesAt m.bytes 0 a
  rw [Nat.zero_add] at this
  rw [← this]
  conv_lhs => rw [eq_ofBytes_of_wf m h]
  rfl

theorem fetch_eq_none_iff (m : Memory) (h : m.wf = true) (a : Nat) : m.fetch a = none ↔ m.size ≤ a := by
  rw [fetch_of_wf m h]; simp

theorem fetch_isSome_iff (m : Memory) (h : m.wf = true) (a : Nat) : (m.fetch a).isSome ↔ a < m.size := by
  rw [fetch_of_wf m h]; simp

/-- Putting a byte at an offset up to `N` keeps the canonical form. -/
theorem wf_put (m : Memory) (a : Nat) (b : Byte) (h : m.wf = true) (ha : a ≤ m.size) : (m.put a b).wf = true := by
  have key : ∀ (m : Memory) (k a : Nat), m.map Prod.fst = List.range' k m.length → k ≤ a → a ≤ k + m.length →
      (m.put a b).map Prod.fst = List.range' k (m.put a b).length := by
    intro m
    induction m with
    | nil => intro k a _ h1 h2; simp only [List.length_nil, Nat.add_zero] at h2; simp [Memory.put]; omega
    | cons c rest ih =>
      intro k a hm h1 h2
      obtain ⟨k', v⟩ := c
      simp only [List.map_cons, List.length_cons, List.range'_succ, List.cons.injEq] at hm
      obtain ⟨rfl, hr⟩ := hm
      simp only [Memory.put]
      rw [if_neg (by omega)]
      split
      · rename_i h3; subst h3; simp [List.range'_succ, hr]
      · simp only [List.length_cons] at h2
        simp [List.range'_succ, ih (k' + 1) a hr (by omega) (by omega)]
  rw [wf_iff, List.range_eq_range'] at h ⊢
  exact key m 0 a h (Nat.zero_le _) (by simpa [Memory.size] using ha)

theorem size_put_of_lt (m : Memory) (a : Nat) (b : Byte) : m.size ≤ (m.put a b).size := by
  induction m with
  | nil => simp [Memory.put, Memory.size]
  | cons c rest ih =>
    obtain ⟨k, v⟩ := c
    simp only [Memory.put, Memory.size] at ih ⊢
    split
    · simp
    · split
      · simp
      · simpa using ih

/-- Putting consecutive bytes from an offset up to `N` keeps the canonical form. -/
theorem wf_putBytes (bs : List Byte) (m : Memory) (a : Nat) (h : m.wf = true) (ha : a ≤ m.size) :
    (m.putBytes a bs).wf = true := by
  induction bs generalizing m a with
  | nil => exact h
  | cons b bs ih =>
    have hw := wf_put m a b h ha
    refine ih _ _ hw ?_
    have : ((m.put a b).fetch a).isSome := by simp
    exact (fetch_isSome_iff _ hw a).1 this

/-! ### The reads -/

/-- `MemRead` on a canonical image: the bytes when they all exist, nothing otherwise (rule R28). -/
theorem read_of_wf (m : Memory) (h : m.wf = true) (n a : Nat) :
    m.read a n = if n = 0 ∨ a + n ≤ m.size then some ((m.bytes.drop a).take n) else none := by
  induction n generalizing a with
  | zero => simp [Memory.read]
  | succ n ih =>
    rw [Memory.read]
    by_cases ha : a < m.size
    · have hb : m.fetch a = some (m.bytes[a]'(by simpa using ha)) := by
        rw [fetch_of_wf m h]; simp [ha]
      have hd := List.drop_eq_getElem_cons (l := m.bytes) (i := a) (by simpa using ha)
      rw [hb, ih, hd]
      by_cases hn : n = 0 ∨ a + 1 + n ≤ m.size
      · rw [if_pos hn, if_pos (by omega), List.take_succ_cons]; rfl
      · rw [if_neg hn, if_neg (by omega)]; rfl
    · have hb : m.fetch a = none := (fetch_eq_none_iff m h a).2 (by omega)
      rw [hb, if_neg (by omega)]

/-- The window on a canonical image (rule R25). -/
theorem bytesFrom_of_wf (m : Memory) (h : m.wf = true) (n a : Nat) :
    m.bytesFrom a n = (m.bytes.drop a).take n := by
  induction n generalizing a with
  | zero => simp [Memory.bytesFrom]
  | succ n ih =>
    rw [Memory.bytesFrom]
    by_cases ha : a < m.size
    · have hb : m.fetch a = some (m.bytes[a]'(by simpa using ha)) := by
        rw [fetch_of_wf m h]; simp [ha]
      have hd := List.drop_eq_getElem_cons (l := m.bytes) (i := a) (by simpa using ha)
      rw [hb, hd, List.take_succ_cons, ← ih (a + 1)]
    · have hb : m.fetch a = none := (fetch_eq_none_iff m h a).2 (by omega)
      rw [hb, List.drop_of_length_le (by simp; omega)]
      simp

/-- A window read is at most as long as asked. -/
theorem length_bytesFrom_le (m : Memory) (n a : Nat) : (m.bytesFrom a n).length ≤ n := by
  induction n generalizing a with
  | zero => simp [Memory.bytesFrom]
  | succ n ih =>
    rw [Memory.bytesFrom]
    split
    · simp
    · simpa using ih (a + 1)

/-- Bytes put at an offset are the window there. -/
theorem bytesFrom_putBytes (bs : List Byte) (m : Memory) (a : Nat) :
    (m.putBytes a bs).bytesFrom a bs.length = bs := by
  have key : ∀ (bs : List Byte) (m : Memory) (a : Nat), (∀ k, k < bs.length → m.fetch (a + k) = bs[k]?) →
      m.bytesFrom a bs.length = bs := by
    intro bs
    induction bs with
    | nil => intro m a _; rfl
    | cons b bs ih =>
      intro m a hk
      have h0 := hk 0 (by simp)
      simp only [Nat.add_zero, List.getElem?_cons_zero] at h0
      rw [List.length_cons, Memory.bytesFrom, h0]
      refine congrArg (b :: ·) (ih m (a + 1) fun k hlt => ?_)
      have := hk (k + 1) (by simpa using hlt)
      rw [List.getElem?_cons_succ] at this
      rw [← this]; congr 1; omega
  exact key bs _ a fun k hk => fetch_putBytes_inside bs m a k hk

end Sys2Proof.Machine.Memory
end

