-- ==== Sys2Proof/Laws/Operands.lean ====
section
/-! SUPPORT. The laws of the operand machinery: rendering case by case, the values of fields, and the bounds of
lengths. -/

namespace Sys2Proof.Machine

@[simp] theorem render_reg (name : Text) : render (.reg name) = name := rfl
@[simp] theorem render_direct (addr : Int) : render (.mem none addr) = ['['] ++ dec addr.toNat ++ [']'] := rfl
@[simp] theorem render_based (base : Text) (disp : Int) : render (.mem (some base) disp) = renderBased base disp := rfl
@[simp] theorem render_imm (v : Int) : render (.imm v) = renderImm v := rfl

@[simp] theorem renderBased_zero (base : Text) : renderBased base 0 = ['['] ++ base ++ [']'] := by simp [renderBased]

theorem renderBased_pos (base : Text) (v : Int) (h : 0 < v) :
    renderBased base v = ['['] ++ base ++ [' ', '+', ' '] ++ dec v.toNat ++ [']'] := by
  rw [renderBased, if_neg (by omega), if_pos h, show v.natAbs = v.toNat by omega]

theorem renderBased_neg (base : Text) (v : Int) (h : v < 0) :
    renderBased base v = ['['] ++ base ++ [' ', '-', ' '] ++ dec (-v).toNat ++ [']'] := by
  rw [renderBased, if_neg (by omega), if_neg (by omega), show v.natAbs = (-v).toNat by omega]

theorem renderImm_nonneg (v : Int) (h : 0 ≤ v) : renderImm v = dec v.toNat := by
  rw [renderImm, if_pos h, show v.natAbs = v.toNat by omega]

theorem renderImm_neg (v : Int) (h : v < 0) : renderImm v = ['-'] ++ dec (-v).toNat := by
  rw [renderImm, if_neg (by omega), show v.natAbs = (-v).toNat by omega]

@[simp] theorem regMemOperand_reg (w : Bool) (i : RegIdx) : regMemOperand w (.reg i) = .reg (regName w i) := rfl
@[simp] theorem regMemOperand_direct (w : Bool) (a : Word) : regMemOperand w (.direct a) = .mem none a.toNat := rfl
@[simp] theorem regMemOperand_indexed (w : Bool) (r : RegIdx) (d : Option StreamField) :
    regMemOperand w (.indexed r d) = .mem (some (eaBase r)) (dispValue d) := rfl

/-- `sext_8` is two's complement (rule R99). -/
theorem sext8_toNat (b : Byte) : sext8 b.toNat = b.toInt := by revert b; decide

/-- `sext_16` is two's complement (rule R100). -/
theorem sext16_toNat (v : Word) : sext16 v.toNat = v.toInt := by
  have := v.isLt
  rw [BitVec.toInt_eq_toNat_cond]
  unfold sext16
  split <;> split <;> omega

@[simp] theorem fieldValue_byte (b : Byte) : fieldValue (.byte b) = b.toInt := sext8_toNat b
@[simp] theorem fieldValue_word (v : Word) : fieldValue (.word v) = v.toInt := sext16_toNat v

/-- Every field value is a signed 16-bit value (rules R62, R63). -/
theorem fieldValue_bounds (f : StreamField) : -32768 ≤ fieldValue f ∧ fieldValue f ≤ 32767 := by
  cases f with
  | byte b => have := b.isLt; simp only [fieldValue, sext8]; split <;> omega
  | word v => have := v.isLt; simp only [fieldValue, sext16]; split <;> omega

theorem dispLen_le (md : BitVec 2) (r_m : RegIdx) : dispLen md r_m ≤ 2 := by
  revert md r_m; decide

theorem immLen_bounds (wd : Bool) : 1 ≤ immLen wd ∧ immLen wd ≤ 2 := by cases wd <;> decide

theorem rmrLength_bounds (rm : RegMem) : 2 ≤ rmrLength rm ∧ rmrLength rm ≤ 4 := by
  have := dispLen_le rm.modBits rm.rmBits
  simp only [rmrLength]; omega

theorem rmiLength_bounds (rm : RegMem) (wd : Bool) : 3 ≤ rmiLength rm wd ∧ rmiLength rm wd ≤ 6 := by
  have := dispLen_le rm.modBits rm.rmBits
  have := immLen_bounds wd
  simp only [rmiLength]; omega

/-- Every instruction consumes 1 to 6 bytes (rule R44). -/
theorem instrLength_bounds (i : Instr) : 1 ≤ instrLength i ∧ instrLength i ≤ 6 := by
  have rmr := rmrLength_bounds
  have rmi := rmiLength_bounds
  cases i with
  | movRmReg d w reg rm => have := rmr rm; simp only [instrLength]; omega
  | addRmReg d w reg rm => have := rmr rm; simp only [instrLength]; omega
  | subRmReg d w reg rm => have := rmr rm; simp only [instrLength]; omega
  | cmpRmReg d w reg rm => have := rmr rm; simp only [instrLength]; omega
  | movRmImm w rm imm => have := rmi rm w; simp only [instrLength]; omega
  | addRmImm sx w rm imm => have := rmi rm (wordData sx w); simp only [instrLength]; omega
  | subRmImm sx w rm imm => have := rmi rm (wordData sx w); simp only [instrLength]; omega
  | cmpRmImm sx w rm imm => have := rmi rm (wordData sx w); simp only [instrLength]; omega
  | movRegImm w reg imm => have := immLen_bounds w; simp only [instrLength]; omega
  | movAccMem w a => simp [instrLength]
  | movMemAcc w a => simp [instrLength]
  | unrecognized b e => simp [instrLength]

/-- The two digits of a comment line are hexadecimal digits of the two halves of the byte (rule R66). -/
theorem hex2_digits (b : Byte) :
    hex2 b = [Nat.digitChar (b.toNat / 16), Nat.digitChar (b.toNat % 16)] := by
  revert b; decide

end Sys2Proof.Machine
end

