-- ==== Sys2Proof/Laws/PerInstr.lean ====
section
/-! SUPPORT. Facts about every instruction as syntax, one lemma per constructor. -/

namespace Sys2Proof.Laws.EncodedLength

open Sys2Proof Sys2Proof.Machine

/-- A well-formed instruction is encoded in as many bytes as rule R52 gives, between 1 and 6. -/
def Statement (i : Instr) : Prop :=
  i.wf = true → (encode i).length = instrLength i ∧ 1 ≤ instrLength i ∧ instrLength i ≤ Config.maxLength

/-- The RMR formats. -/
theorem rmr (b0 : Byte) (reg : RegIdx) (rm : RegMem) (h : rm.wf = true) :
    (b0 :: encodeRegMem reg rm).length = rmrLength rm ∧ 1 ≤ rmrLength rm ∧ rmrLength rm ≤ Config.maxLength := by
  have := dispLen_le rm.modBits rm.rmBits
  have := length_encodeRegMem reg rm h
  simp only [List.length_cons, rmrLength, Config.maxLength]
  omega

/-- The RMI formats. -/
theorem rmi (b0 : Byte) (reg : RegIdx) (rm : RegMem) (imm : StreamField) (wd : Bool) (h : rm.wf = true)
    (hw : imm.isWord = wd) :
    (b0 :: (encodeRegMem reg rm ++ imm.bytes)).length = rmiLength rm wd ∧ 1 ≤ rmiLength rm wd ∧
      rmiLength rm wd ≤ Config.maxLength := by
  subst hw
  have := dispLen_le rm.modBits rm.rmBits
  have := immLen_bounds imm.isWord
  have := length_encodeRegMem reg rm h
  have := length_bytes_field imm
  simp only [List.length_cons, List.length_append, rmiLength, Config.maxLength]
  omega

theorem movRmReg (d w : Bool) (reg : RegIdx) (rm : RegMem) : Statement (.movRmReg d w reg rm) := fun h => rmr _ _ _ h

theorem movRmImm (w : Bool) (rm : RegMem) (imm : StreamField) : Statement (.movRmImm w rm imm) := fun h => by
  simp only [Instr.wf, Bool.and_eq_true, beq_iff_eq] at h
  exact rmi _ _ _ _ _ h.1 h.2

theorem movRegImm (w : Bool) (reg : RegIdx) (imm : StreamField) : Statement (.movRegImm w reg imm) := fun h => by
  simp only [Instr.wf, beq_iff_eq] at h
  subst h
  have := immLen_bounds imm.isWord
  simp only [encode, List.length_cons, length_bytes_field, instrLength, Config.maxLength]
  omega

theorem movAccMem (w : Bool) (addr : Word) : Statement (.movAccMem w addr) := fun _ => by
  simp [encode, wordBytes, instrLength, Config.maxLength]

theorem movMemAcc (w : Bool) (addr : Word) : Statement (.movMemAcc w addr) := fun _ => by
  simp [encode, wordBytes, instrLength, Config.maxLength]

theorem addRmReg (d w : Bool) (reg : RegIdx) (rm : RegMem) : Statement (.addRmReg d w reg rm) := fun h => rmr _ _ _ h

theorem subRmReg (d w : Bool) (reg : RegIdx) (rm : RegMem) : Statement (.subRmReg d w reg rm) := fun h => rmr _ _ _ h

theorem cmpRmReg (d w : Bool) (reg : RegIdx) (rm : RegMem) : Statement (.cmpRmReg d w reg rm) := fun h => rmr _ _ _ h

theorem addRmImm (s w : Bool) (rm : RegMem) (imm : StreamField) : Statement (.addRmImm s w rm imm) := fun h => by
  simp only [Instr.wf, Bool.and_eq_true, beq_iff_eq] at h
  exact rmi _ _ _ _ _ h.1 h.2

theorem subRmImm (s w : Bool) (rm : RegMem) (imm : StreamField) : Statement (.subRmImm s w rm imm) := fun h => by
  simp only [Instr.wf, Bool.and_eq_true, beq_iff_eq] at h
  exact rmi _ _ _ _ _ h.1 h.2

theorem cmpRmImm (s w : Bool) (rm : RegMem) (imm : StreamField) : Statement (.cmpRmImm s w rm imm) := fun h => by
  simp only [Instr.wf, Bool.and_eq_true, beq_iff_eq] at h
  exact rmi _ _ _ _ _ h.1 h.2

theorem unrecognized (b0 : Byte) (examined : Option Byte) : Statement (.unrecognized b0 examined) := fun _ => by
  simp [encode, instrLength, Config.maxLength]

end Sys2Proof.Laws.EncodedLength
end

