-- ==== Sys2Proof/Laws/State.lean ====
section
/-! SUPPORT. One lemma per field per update of the state, all true by `rfl`. -/

namespace Sys2Proof.Machine

variable (s : State) (text : Text) (len : Nat) (bytes : List Byte) (b0 : Byte)

@[simp] theorem emit_cursor : (s.emit text).cursor = s.cursor := rfl
@[simp] theorem emit_phase : (s.emit text).phase = s.phase := rfl
@[simp] theorem emit_cause : (s.emit text).cause = s.cause := rfl
@[simp] theorem emit_out : (s.emit text).out = s.out ++ text := rfl
@[simp] theorem emit_image : (s.emit text).image = s.image := rfl
@[simp] theorem emit_host : (s.emit text).host = s.host := rfl

@[simp] theorem advance_cursor : (s.advance len).cursor = s.cursor + len := rfl
@[simp] theorem advance_phase : (s.advance len).phase = s.phase := rfl
@[simp] theorem advance_cause : (s.advance len).cause = s.cause := rfl
@[simp] theorem advance_out : (s.advance len).out = s.out := rfl
@[simp] theorem advance_image : (s.advance len).image = s.image := rfl
@[simp] theorem advance_host : (s.advance len).host = s.host := rfl

@[simp] theorem commit_cursor : (s.commit text len).cursor = s.cursor + len := rfl
@[simp] theorem commit_phase : (s.commit text len).phase = s.phase := rfl
@[simp] theorem commit_cause : (s.commit text len).cause = s.cause := rfl
@[simp] theorem commit_out : (s.commit text len).out = s.out ++ text := rfl
@[simp] theorem commit_image : (s.commit text len).image = s.image := rfl
@[simp] theorem commit_host : (s.commit text len).host = s.host := rfl

@[simp] theorem writeHeader_cursor : s.writeHeader.cursor = s.cursor := rfl
@[simp] theorem writeHeader_phase : s.writeHeader.phase = .awaiting := rfl
@[simp] theorem writeHeader_cause : s.writeHeader.cause = s.cause := rfl
@[simp] theorem writeHeader_out : s.writeHeader.out = s.out ++ header := rfl
@[simp] theorem writeHeader_image : s.writeHeader.image = s.image := rfl
@[simp] theorem writeHeader_host : s.writeHeader.host = s.host := rfl

@[simp] theorem sampled_cursor : s.sampled.cursor = s.cursor := rfl
@[simp] theorem sampled_phase : s.sampled.phase = s.phase := rfl
@[simp] theorem sampled_cause : s.sampled.cause = s.cause := rfl
@[simp] theorem sampled_out : s.sampled.out = s.out := rfl
@[simp] theorem sampled_image : s.sampled.image = s.image := rfl
@[simp] theorem sampled_host : s.sampled.host = s.host.tail := rfl

@[simp] theorem raise_endOfInput_cursor : (s.raise .endOfInput).cursor = s.cursor := rfl
@[simp] theorem raise_endOfInput_phase : (s.raise .endOfInput).phase = .exhausted := rfl
@[simp] theorem raise_endOfInput_cause : (s.raise .endOfInput).cause = .endOfInput := rfl
@[simp] theorem raise_endOfInput_out : (s.raise .endOfInput).out = s.out := rfl
@[simp] theorem raise_endOfInput_image : (s.raise .endOfInput).image = s.image := rfl
@[simp] theorem raise_endOfInput_host : (s.raise .endOfInput).host = s.host := rfl

@[simp] theorem raise_truncatedStream_cursor : (s.raise .truncatedStream).cursor = s.cursor := rfl
@[simp] theorem raise_truncatedStream_phase : (s.raise .truncatedStream).phase = .faulted := rfl
@[simp] theorem raise_truncatedStream_cause : (s.raise .truncatedStream).cause = .truncatedStream := rfl
@[simp] theorem raise_truncatedStream_out : (s.raise .truncatedStream).out = s.out := rfl
@[simp] theorem raise_truncatedStream_image : (s.raise .truncatedStream).image = s.image := rfl
@[simp] theorem raise_truncatedStream_host : (s.raise .truncatedStream).host = s.host := rfl

@[simp] theorem raise_ioFailure_cursor : (s.raise .ioFailure).cursor = s.cursor := rfl
@[simp] theorem raise_ioFailure_phase : (s.raise .ioFailure).phase = .faulted := rfl
@[simp] theorem raise_ioFailure_cause : (s.raise .ioFailure).cause = .ioFailure := rfl
@[simp] theorem raise_ioFailure_out : (s.raise .ioFailure).out = s.out := rfl
@[simp] theorem raise_ioFailure_image : (s.raise .ioFailure).image = s.image := rfl
@[simp] theorem raise_ioFailure_host : (s.raise .ioFailure).host = s.host := rfl

/-- The recoverable event is a commit of the comment line and one byte. -/
@[simp] theorem raise_unrecognizedOpcode :
    s.raise (.unrecognizedOpcode b0) = s.commit (commentLine b0) 1 := rfl

@[simp] theorem hostReset_cursor : (s.hostReset bytes).cursor = 0 := rfl
@[simp] theorem hostReset_phase : (s.hostReset bytes).phase = .start := rfl
@[simp] theorem hostReset_cause : (s.hostReset bytes).cause = .none := rfl
@[simp] theorem hostReset_out : (s.hostReset bytes).out = [] := rfl
@[simp] theorem hostReset_image : (s.hostReset bytes).image = Memory.ofBytes bytes := rfl
@[simp] theorem hostReset_host : (s.hostReset bytes).host = s.host := rfl

@[simp] theorem withFetchWord_cursor (nbits w : Nat) : (s.withFetchWord nbits w).cursor = s.cursor := rfl
@[simp] theorem withFetchWord_phase (nbits w : Nat) : (s.withFetchWord nbits w).phase = .awaiting := rfl
@[simp] theorem withFetchWord_cause (nbits w : Nat) : (s.withFetchWord nbits w).cause = .none := rfl
@[simp] theorem withFetchWord_out (nbits w : Nat) : (s.withFetchWord nbits w).out = s.out := rfl
@[simp] theorem withFetchWord_image (nbits w : Nat) :
    (s.withFetchWord nbits w).image = s.image.putBytes s.cursor (tableBytes nbits w) := rfl
@[simp] theorem withFetchWord_host (nbits w : Nat) : (s.withFetchWord nbits w).host = [] := rfl

@[simp] theorem reset_cursor : State.reset.cursor = 0 := rfl
@[simp] theorem reset_phase : State.reset.phase = .start := rfl
@[simp] theorem reset_cause : State.reset.cause = .none := rfl
@[simp] theorem reset_out : State.reset.out = [] := rfl
@[simp] theorem reset_image : State.reset.image = [] := rfl
@[simp] theorem reset_host : State.reset.host = [] := rfl

/-- A host that asserts nothing from now on asserts nothing in this step. -/
@[simp] theorem resetNow_of_host_nil (h : s.host = []) : s.resetNow = none := by simp [State.resetNow, h]
@[simp] theorem ioErrorNow_of_host_nil (h : s.host = []) : s.ioErrorNow = false := by simp [State.ioErrorNow, h]

end Sys2Proof.Machine
end

