-- ==== Sys2Proof/Laws/Step.lean ====
section
/-! SUPPORT. Everything a meaning and a step can do, said once. -/

namespace Sys2Proof.Machine

open Sys2Proof.Safety

/-- Every meaning appends its line, moves the cursor by its length, and changes nothing else. -/
theorem exec_eq_commit (i : Instr) (s : State) : exec i s = .next (s.commit (instrText i) (instrLength i)) := by
  cases i <;> rfl

/-- `emits` is a commit. -/
theorem commit_eq_emits (s : State) (text : Text) (len : Nat) : s.commit text len = emits s text len := rfl

/-- The seven things a step can do (rules R105 to R112, R123, R135), each with its guard. -/
theorem step_cases (s t : State) (h : step s = .next t) :
    (∃ bytes, s.resetNow = some bytes ∧ t = s.sampled.hostReset bytes) ∨
    (s.resetNow = none ∧ Terminal s ∧ t = s.sampled) ∨
    (s.resetNow = none ∧ (s.phase = .start ∨ s.phase = .awaiting) ∧ s.ioErrorNow = true ∧
      t = s.sampled.raise .ioFailure) ∨
    (HostIdle s ∧ s.phase = .start ∧ t = s.sampled.writeHeader) ∨
    (Ready s ∧ decode s.window = .endOfInput ∧ t = s.sampled.raise .endOfInput) ∨
    (Ready s ∧ decode s.window = .truncatedStream ∧ t = s.sampled.raise .truncatedStream) ∨
    (Ready s ∧ ∃ i rest, decode s.window = .ok i rest ∧ t = s.sampled.commit (instrText i) (instrLength i)) := by
  unfold step State.action at h
  cases hr : s.resetNow with
  | some bytes =>
    simp only [hr, Action.perform, Host.Outcome.next.injEq] at h
    exact .inl ⟨bytes, rfl, h.symm⟩
  | none =>
    simp only [hr] at h
    refine .inr ?_
    cases hp : s.phase with
    | exhausted => exact .inl ⟨rfl, .inl hp, by simpa [hp, Action.perform] using h.symm⟩
    | faulted => exact .inl ⟨rfl, .inr hp, by simpa [hp, Action.perform] using h.symm⟩
    | start =>
      cases hio : s.ioErrorNow with
      | true => exact .inr (.inl ⟨rfl, .inl rfl, rfl, by simpa [hp, hio, Action.perform] using h.symm⟩)
      | false =>
        exact .inr (.inr (.inl ⟨⟨hr, hio⟩, rfl, by simpa [hp, hio, Action.perform] using h.symm⟩))
    | awaiting =>
      cases hio : s.ioErrorNow with
      | true => exact .inr (.inl ⟨rfl, .inr rfl, rfl, by simpa [hp, hio, Action.perform] using h.symm⟩)
      | false =>
        refine .inr (.inr (.inr ?_))
        cases hd : decode s.window with
        | endOfInput =>
          exact .inl ⟨⟨hp, hr, hio⟩, rfl, by simpa [hp, hio, State.decoded, hd, Action.perform] using h.symm⟩
        | truncatedStream =>
          exact .inr (.inl ⟨⟨hp, hr, hio⟩, rfl, by simpa [hp, hio, State.decoded, hd, Action.perform] using h.symm⟩)
        | ok i rest =>
          refine .inr (.inr ⟨⟨hp, hr, hio⟩, i, rest, rfl, ?_⟩)
          simpa [hp, hio, State.decoded, hd, Action.perform, exec_eq_commit] using h.symm

/-- What a ready state's step does is what the decoder answers at the cursor (rule R107). -/
theorem action_of_ready (s : State) (h : Ready s) : s.action = s.decoded := by
  obtain ⟨hp, hr, hio⟩ := h
  simp [State.action, hp, hr, hio]

/-- The window of a ready state is empty exactly when the image has no byte at the cursor. -/
theorem window_eq_nil_iff (s : State) : s.window = [] ↔ s.image.fetch s.cursor = none := by
  unfold State.window Config.window
  rw [Memory.bytesFrom]
  cases s.image.fetch s.cursor <;> simp

/-- The window on a canonical image. -/
theorem window_of_wf (s : State) (h : s.image.wf = true) :
    s.window = (s.image.bytes.drop s.cursor).take Config.window :=
  Memory.bytesFrom_of_wf s.image h _ _

/-- A run of one more step, through the machine's own step. -/
theorem run_succ (k : Nat) (s t : State) (h : step s = .next t) : core.run (k + 1) s = core.run k t := by
  have h' : core.step s = .next t := h
  have hrun := Host.Core.run.eq_2 core s k
  rw [h'] at hrun
  exact hrun

/-- The label of a ready state's step is the label of what the decoder answers at the cursor (rule R107). -/
theorem event_of_ready (s : State) (h : Ready s) : s.event = s.decoded.label := by
  rw [State.event, action_of_ready s h]

end Sys2Proof.Machine
end

