-- ==== Sys2Proof/Laws/Window.lean ====
section
/-! SUPPORT. The forward-only reads over the window are the reads of the image at absolute offsets (rule R118), and
the decimal numeral digit by digit (rule R79). -/

namespace Sys2Proof.Machine

/-- `lo | (hi << 8)` is the word of the two bytes (rule R9). -/
theorem assemble16_eq (lo hi : Byte) : assemble16 lo hi = (wordOfBytes lo hi).toNat := by
  rw [toNat_wordOfBytes, assemble16, Nat.or_comm, ← Nat.shiftLeft_add_eq_or_of_lt lo.isLt, Nat.shiftLeft_eq]
  omega

theorem windowRead16_eq (m : Memory) (a : Nat) :
    windowRead16 m a = (m.fetch a).bind fun lo => (m.fetch (a + 1)).map fun hi => (wordOfBytes lo hi).toNat := by
  simp only [windowRead16, Memory.read]
  cases m.fetch a <;> cases m.fetch (a + 1) <;> simp [assemble16_eq]

theorem nextByte_bytesFrom (m : Memory) (a n : Nat) :
    nextByte (m.bytesFrom a (n + 1)) = (m.fetch a).map fun b => (b, m.bytesFrom (a + 1) n) := by
  rw [Memory.bytesFrom]
  cases m.fetch a <;> rfl

theorem nextWord_bytesFrom (m : Memory) (a n : Nat) :
    nextWord (m.bytesFrom a (n + 2)) = (m.fetch a).bind fun lo =>
      (m.fetch (a + 1)).map fun hi => (wordOfBytes lo hi, m.bytesFrom (a + 2) n) := by
  rw [Memory.bytesFrom]
  cases m.fetch a with
  | none => rfl
  | some lo =>
    simp only
    rw [Memory.bytesFrom]
    cases m.fetch (a + 1) <;> rfl

theorem dec_of_lt (v : Nat) (h : v < 10) : dec v = [Nat.digitChar v] := Nat.toDigits_of_lt_base h

theorem dec_step (v : Nat) (h : 10 ≤ v) : dec v = dec (v / 10) ++ [Nat.digitChar (v % 10)] := by
  have := @Nat.toDigits_append_toDigits 10 (v / 10) (v % 10) (by omega) (by omega) (by omega)
  rw [show 10 * (v / 10) + v % 10 = v by omega] at this
  rw [dec, ← this, Nat.toDigits_of_lt_base (n := v % 10) (by omega)]
  rfl

end Sys2Proof.Machine
end

