-- ==== Sys2Proof/Tests/Slice0.lean ====
section
/-! SUPPORT. Tests, each on one instruction or one step. Expected texts and words come from the spec:
95_test_vectors.md (table named beside the test), or bits written out from the encoding table of rule R45. The
witnesses at the end meet the hypotheses of the statements. -/

namespace Sys2Proof.Tests

open Sys2Proof.Machine Sys2Proof.Safety Sys2Proof.Stated

/-! ### Helpers -/

/-- Awaiting the leading byte at offset 0 of an image, the header not shown. -/
def at0 (bytes : List Byte) : State := { State.reset with phase := .awaiting, image := Memory.ofBytes bytes }

/-- What a next state shows: output, cursor, phase, cause. -/
def shown : Host.Outcome State Fault Refusal → Option (Text × Nat × Phase × Cause)
  | .next t => some (t.out, t.cursor, t.phase, t.cause)
  | .fault _ => none
  | .refused _ => none

/-- The text and cursor after one step on an image, where the block goes on. -/
def lineOf (bytes : List Byte) : Option (Text × Nat) :=
  match shown (step (at0 bytes)) with
  | some (text, cursor, .awaiting, .none) => some (text, cursor)
  | some _ => none
  | none => none

/-! ### WellFormed: an ill-formed term for each check -/

/-- Check 1: there is no `[bp]` without a displacement field. -/
theorem test_wf_bp_without_displacement : RegMem.wf (.indexed 0b110#3 none) = false := by decide
theorem test_wf_refuses_ill_formed_operand :
    Instr.wf (.movRmReg true true 0#3 (.indexed 0b110#3 none)) = false := by decide
/-- Check 2: `0x83` has one immediate byte, `0xC6` one, `0xB8` two. -/
theorem test_wf_sign_extended_immediate_is_a_byte :
    Instr.wf (.addRmImm true true (.reg 3#3) (.word 5#16)) = false := by decide
theorem test_wf_byte_move_has_a_byte : Instr.wf (.movRmImm false (.reg 3#3) (.word 5#16)) = false := by decide
theorem test_wf_word_register_has_a_word : Instr.wf (.movRegImm true 0#3 (.byte 5#8)) = false := by decide
/-- Check 3: a recognized leading byte is not unrecognized, nor is one with a mapped `reg`. -/
theorem test_wf_recognized_byte : Instr.wf (.unrecognized 0x89#8 none) = false := by decide
theorem test_wf_mapped_reg : Instr.wf (.unrecognized 0x80#8 (some 0xE8#8)) = false := by decide
theorem test_wf_unmapped_reg : Instr.wf (.unrecognized 0x80#8 (some 0xC8#8)) = true := by decide

/-! ### Decode: a word of every constructor, bit by bit from rule R45 -/

/-- `100010 d w`, `mm ggg aaa`: mov, d = 0, w = 1, mod 11, reg 011, r_m 000. -/
theorem test_decode_movRmReg :
    decode [0b10001001#8, 0b11011000#8] = .ok (.movRmReg false true 0b011#3 (.reg 0b000#3)) [] := by decide
/-- `1100011 w`, `mm 000 aaa`, disp16, imm16: mod 10, r_m 101. -/
theorem test_decode_movRmImm :
    decode [0b11000111#8, 0b10000101#8, 0x85#8, 0x03#8, 0x5B#8, 0x01#8] =
      .ok (.movRmImm true (.indexed 0b101#3 (some (.word 0x0385#16))) (.word 0x015B#16)) [] := by decide
/-- `1011 w rrr`, imm8: w = 0, reg 100. -/
theorem test_decode_movRegImm :
    decode [0b10110100#8, 0x80#8, 0x90#8] = .ok (.movRegImm false 0b100#3 (.byte 0x80#8)) [0x90#8] := by decide
/-- `101000 0 w`, address: w = 1. -/
theorem test_decode_movAccMem :
    decode [0b10100001#8, 0xFB#8, 0x09#8] = .ok (.movAccMem true 0x09FB#16) [] := by decide
/-- `101000 1 w`, address: w = 0. -/
theorem test_decode_movMemAcc :
    decode [0b10100010#8, 0x0F#8, 0x00#8] = .ok (.movMemAcc false 0x000F#16) [] := by decide
/-- `000000 d w`: d = 1, w = 1, mod 11, reg 000, r_m 001. -/
theorem test_decode_addRmReg :
    decode [0b00000011#8, 0b11000001#8] = .ok (.addRmReg true true 0b000#3 (.reg 0b001#3)) [] := by decide
/-- `001010 d w`, disp8: d = 1, w = 1, mod 01, reg 011, r_m 110. -/
theorem test_decode_subRmReg :
    decode [0b00101011#8, 0b01011110#8, 0x00#8] =
      .ok (.subRmReg true true 0b011#3 (.indexed 0b110#3 (some (.byte 0#8)))) [] := by decide
/-- `001110 d w`, direct address: d = 1, w = 1, mod 00, reg 110, r_m 110. -/
theorem test_decode_cmpRmReg :
    decode [0b00111011#8, 0b00110110#8, 0xE2#8, 0x12#8] =
      .ok (.cmpRmReg true true 0b110#3 (.direct 0x12E2#16)) [] := by decide
/-- `100000 s w`, `mm 000 aaa`, imm8: s = 1, w = 1. -/
theorem test_decode_addRmImm :
    decode [0b10000011#8, 0b11000011#8, 0xFF#8] = .ok (.addRmImm true true (.reg 0b011#3) (.byte 0xFF#8)) [] := by decide
/-- `100000 s w`, `mm 101 aaa`, disp8, imm16: s = 0, w = 1. -/
theorem test_decode_subRmImm :
    decode [0b10000001#8, 0b01101100#8, 0xFC#8, 0x00#8, 0x01#8] =
      .ok (.subRmImm false true (.indexed 0b100#3 (some (.byte 0xFC#8))) (.word 0x0100#16)) [] := by decide
/-- `100000 s w`, `mm 111 aaa`, imm8: s = 0, w = 0. -/
theorem test_decode_cmpRmImm :
    decode [0b10000000#8, 0b00111111#8, 0x22#8] =
      .ok (.cmpRmImm false false (.indexed 0b111#3 none) (.byte 0x22#8)) [] := by decide
/-- No pattern, and an unmapped `reg` whose `b1` stays in the stream. -/
theorem test_decode_unrecognized :
    decode [0xF4#8, 0x01#8] = .ok (.unrecognized 0xF4#8 none) [0x01#8] ∧
    decode [0x80#8, 0b11001000#8] = .ok (.unrecognized 0x80#8 (some 0xC8#8)) [0xC8#8] := by decide
/-- Table 2.10: a half-present field and a missing `b1` are truncated, an unmapped `reg` without its immediate
is not. -/
theorem test_decode_truncated :
    decode [0xB8#8, 0x05#8] = .truncatedStream ∧ decode [0x80#8] = .truncatedStream ∧
    decode [0xC7#8, 0x06#8, 0xE8#8, 0x03#8, 0x2C#8] = .truncatedStream ∧
    decode [0x80#8, 0xC8#8] = .ok (.unrecognized 0x80#8 (some 0xC8#8)) [0xC8#8] := by decide

/-- Encoding writes the words of tables 2.3, 2.5 and 2.8. -/
theorem test_encode :
    encode (.movRmReg true false 0b011#3 (.indexed 0b100#3 (some (.byte 0xFB#8)))) = [0x8A#8, 0x5C#8, 0xFB#8] ∧
    encode (.movRegImm true 0b010#3 (.word 3948#16)) = [0xBA#8, 0x6C#8, 0x0F#8] ∧
    encode (.subRmImm false false (.direct 5000#16) (.byte 0xFB#8)) = [0x80#8, 0x2E#8, 0x88#8, 0x13#8, 0xFB#8] := by
  decide

/-- Rule R67: `b0` is bits 15:8 of the opcode table's word, `b1` bits 7:0. -/
theorem test_decodeTableWord :
    decodeTableWord 16 0x89D8 = some (.movRmReg false true 0b011#3 (.reg 0b000#3)) ∧
    decodeTableWord 16 0xA200 = some (.movMemAcc false 0#16) ∧
    decodeTableWord 16 0x8038 = some (.cmpRmImm false false (.indexed 0#3 none) (.byte 0#8)) ∧
    decodeTableWord 8 0xF4 = some (.unrecognized 0xF4#8 none) := by decide
/-- A placed word is the very next instruction, from reset. -/
theorem test_withFetchWord :
    shown (step (State.reset.withFetchWord 16 0x89D8)) = some ("mov ax, bx\n".toList, 2, .awaiting, .none) := by decide

/-! ### One step per instruction, texts of 95_test_vectors.md -/

/-- Table 2.3. -/
theorem test_movRmReg_direction :
    lineOf [0x88#8, 0xE7#8] = some ("mov bh, ah\n".toList, 2) ∧
    lineOf [0x8A#8, 0x5C#8, 0xFB#8] = some ("mov bl, [si - 5]\n".toList, 3) := by decide
theorem test_movRmReg_displacements :
    lineOf [0x8B#8, 0x46#8, 0x00#8] = some ("mov ax, [bp]\n".toList, 3) ∧
    lineOf [0x8B#8, 0x81#8, 0x00#8, 0x80#8] = some ("mov ax, [bx + di - 32768]\n".toList, 4) ∧
    lineOf [0x89#8, 0x0E#8, 0xFF#8, 0xFF#8] = some ("mov [65535], cx\n".toList, 4) := by decide
/-- Table 2.4. -/
theorem test_movRmImm_memory :
    lineOf [0xC6#8, 0x46#8, 0xD9#8, 0x80#8] = some ("mov byte [bp - 39], -128\n".toList, 4) ∧
    lineOf [0xC7#8, 0x80#8, 0x00#8, 0x80#8, 0x00#8, 0x80#8] =
      some ("mov word [bx + si - 32768], -32768\n".toList, 6) := by decide
theorem test_movRmImm_register_and_zero :
    lineOf [0xC7#8, 0xC0#8, 0x05#8, 0x00#8] = some ("mov ax, 5\n".toList, 4) ∧
    lineOf [0xC6#8, 0x06#8, 0x00#8, 0x00#8, 0x00#8] = some ("mov byte [0], 0\n".toList, 5) := by decide
/-- Table 2.5. -/
theorem test_movRegImm_word : lineOf [0xBB#8, 0x94#8, 0xF0#8] = some ("mov bx, -3948\n".toList, 3) := by decide
theorem test_movRegImm_byte : lineOf [0xB7#8, 0xFE#8] = some ("mov bh, -2\n".toList, 2) := by decide
/-- Table 2.6. -/
theorem test_movAccMem :
    lineOf [0xA1#8, 0xFF#8, 0xFF#8] = some ("mov ax, [65535]\n".toList, 3) ∧
    lineOf [0xA0#8, 0x10#8, 0x00#8] = some ("mov al, [16]\n".toList, 3) := by decide
theorem test_movMemAcc :
    lineOf [0xA3#8, 0x00#8, 0x80#8] = some ("mov [32768], ax\n".toList, 3) ∧
    lineOf [0xA2#8, 0x0F#8, 0x00#8] = some ("mov [15], al\n".toList, 3) := by decide
/-- Table 2.7. -/
theorem test_addRmReg :
    lineOf [0x01#8, 0x18#8] = some ("add [bx + si], bx\n".toList, 2) ∧
    lineOf [0x02#8, 0xC1#8] = some ("add al, cl\n".toList, 2) := by decide
theorem test_subRmReg :
    lineOf [0x29#8, 0x8C#8, 0x18#8, 0xFC#8] = some ("sub [si - 1000], cx\n".toList, 4) ∧
    lineOf [0x2B#8, 0x06#8, 0xE8#8, 0x03#8] = some ("sub ax, [1000]\n".toList, 4) := by decide
theorem test_cmpRmReg :
    lineOf [0x3A#8, 0x45#8, 0x02#8] = some ("cmp al, [di + 2]\n".toList, 3) ∧
    lineOf [0x39#8, 0xCB#8] = some ("cmp bx, cx\n".toList, 2) := by decide
/-- Table 2.8. -/
theorem test_addRmImm_widths :
    lineOf [0x81#8, 0xC3#8, 0xFF#8, 0x00#8] = some ("add bx, 255\n".toList, 4) ∧
    lineOf [0x83#8, 0xC3#8, 0xFF#8] = some ("add bx, -1\n".toList, 3) ∧
    lineOf [0x82#8, 0xC3#8, 0x05#8] = some ("add bl, 5\n".toList, 3) := by decide
theorem test_addRmImm_keyword :
    lineOf [0x83#8, 0x06#8, 0xE8#8, 0x03#8, 0x05#8] = some ("add word [1000], 5\n".toList, 5) := by decide
theorem test_subRmImm :
    lineOf [0x80#8, 0x2E#8, 0x88#8, 0x13#8, 0xFB#8] = some ("sub byte [5000], -5\n".toList, 5) := by decide
theorem test_cmpRmImm :
    lineOf [0x81#8, 0x7E#8, 0x00#8, 0xE8#8, 0x03#8] = some ("cmp word [bp], 1000\n".toList, 5) := by decide
/-- Tables 2.8 and 2.9. -/
theorem test_unrecognized :
    lineOf [0x0A#8] = some ("; 0a\n".toList, 1) ∧ lineOf [0xC6#8, 0x48#8, 0x88#8] = some ("; c6\n".toList, 1) := by decide

/-! ### The loop -/

/-- Scenario 5 and program P5: header, then the end. -/
theorem test_header_step : shown (step State.reset) = some ("bits 16\n\n".toList, 0, .awaiting, .none) := by decide
theorem test_end_step : shown (step (at0 [])) = some ([], 0, .exhausted, .endOfInput) := by decide
/-- Table 2.10: nothing is emitted for a truncated instruction and the cursor stays. -/
theorem test_truncated_step :
    shown (step (at0 [0x8B#8, 0x1E#8, 0x10#8])) = some ([], 0, .faulted, .truncatedStream) := by decide
/-- Rules R123 and R135. -/
theorem test_io_error_step :
    shown (step { at0 [0xF4#8] with host := [⟨none, true⟩] }) = some ([], 0, .faulted, .ioFailure) := by decide
theorem test_reset_wins :
    shown (step { at0 [0xF4#8] with cursor := 1, out := ['x'], phase := .faulted, cause := .ioFailure, host := [⟨some [0x90#8], true⟩] }) =
      some ([], 0, .start, .none) := by decide

/-! ### Witnesses: states and operands that meet the hypotheses of each statement -/

theorem witness_InstructionsOnlyWriteOutputAndCursor :
    exec (.movRegImm false 0#3 (.byte 5#8)) State.reset = .next (emits State.reset "mov al, 5\n".toList 2) := rfl

/-- A leading byte meets the hypotheses of its step statement: the image's byte at the cursor, the block ready. -/
theorem witness_MovRmRegStepFollowsItsPseudocode :
    Ready (at0 [0x8B#8, 0xC3#8]) ∧ (at0 [0x8B#8, 0xC3#8]).image.fetch 0 = some 0x8B#8 ∧ 0x8B#8 &&& 0xFC#8 = 0x88#8 := by decide
theorem witness_MovRmImmStepFollowsItsPseudocode :
    Ready (at0 [0xC7#8]) ∧ (at0 [0xC7#8]).image.fetch 0 = some 0xC7#8 ∧ 0xC7#8 &&& 0xFE#8 = 0xC6#8 := by decide
theorem witness_MovRegImmStepFollowsItsPseudocode :
    Ready (at0 [0xBF#8, 0x00#8, 0x01#8]) ∧ (at0 [0xBF#8, 0x00#8, 0x01#8]).image.fetch 0 = some 0xBF#8 ∧
    0xBF#8 &&& 0xF0#8 = 0xB0#8 := by decide
theorem witness_AccumulatorMoveStepsFollowTheirPseudocode :
    Ready (at0 [0xA0#8, 0x00#8, 0x00#8]) ∧ (at0 [0xA0#8, 0x00#8, 0x00#8]).image.fetch 0 = some 0xA0#8 ∧
    0xA0#8 &&& 0xFC#8 = 0xA0#8 ∧ 0xA3#8 &&& 0xFC#8 = 0xA0#8 := by decide
theorem witness_ArithRmRegStepsFollowTheirPseudocode :
    Ready (at0 [0x00#8, 0x00#8]) ∧ (at0 [0x00#8, 0x00#8]).image.fetch 0 = some 0x00#8 ∧ 0x03#8 &&& 0xFC#8 = 0x00#8 ∧
    Ready (at0 [0x2B#8, 0x18#8]) ∧ (at0 [0x2B#8, 0x18#8]).image.fetch 0 = some 0x2B#8 ∧ 0x2B#8 &&& 0xFC#8 = 0x28#8 ∧
    Ready (at0 [0x38#8, 0xC1#8]) ∧ (at0 [0x38#8, 0xC1#8]).image.fetch 0 = some 0x38#8 ∧ 0x38#8 &&& 0xFC#8 = 0x38#8 := by decide
theorem witness_ArithImmStepsFollowTheirPseudocode :
    Ready (at0 [0x83#8, 0xFE#8, 0x02#8]) ∧ (at0 [0x83#8, 0xFE#8, 0x02#8]).image.fetch 0 = some 0x83#8 ∧
    0x83#8 &&& 0xFC#8 = 0x80#8 := by decide

/-- One image for each of the three results: a line that ends at `N`, an unrecognized byte, a truncation. -/
theorem witness_StepCommitsTheDecodeFunction :
    Ready (at0 [0x89#8, 0xD8#8]) ∧ (at0 [0x89#8, 0xD8#8]).image.wf = true ∧
    windowDecode (Memory.ofBytes [0x89#8, 0xD8#8]) 0 0x89#8 = .line "mov ax, bx\n".toList 2 ∧
    windowDecode (Memory.ofBytes [0xFF#8]) 0 0xFF#8 = .unrec "; ff\n".toList ∧
    windowDecode (Memory.ofBytes [0x89#8]) 0 0x89#8 = .trunc := by decide

/-- Images that differ right after the window. -/
theorem witness_StepReadsOnlyTheWindow :
    (at0 [1#8, 2#8, 3#8, 4#8, 5#8, 6#8]).resetNow = none ∧
    (∀ k, k < 6 → (Memory.ofBytes [1#8, 2#8, 3#8, 4#8, 5#8, 6#8, 7#8]).fetch (0 + k) =
      (Memory.ofBytes [1#8, 2#8, 3#8, 4#8, 5#8, 6#8]).fetch (0 + k)) ∧
    shown (step (at0 [1#8, 2#8, 3#8, 4#8, 5#8, 6#8])) = some ("add [bp + si], ax\n".toList, 2, .awaiting, .none) := by decide

theorem witness_StepRunsTheDecodedInstruction :
    Ready (at0 [0xB0#8, 0x05#8]) ∧ decode (at0 [0xB0#8, 0x05#8]).window = .ok (.movRegImm false 0#3 (.byte 5#8)) [] := by
  decide

theorem witness_FirstStepWritesTheHeader :
    HostIdle State.reset ∧ State.reset.phase = .start ∧ State.reset.event = some .header ∧
    (at0 [0x90#8]).resetNow = none ∧ shown (step (at0 [0x90#8])) = some ("; 90\n".toList, 1, .awaiting, .none) := by decide

/-- At the end of a one-byte image, and of the empty one. -/
theorem witness_EndOfInputStep :
    let s := { at0 [0x90#8] with cursor := 1 }
    Ready s ∧ s.image.wf = true ∧ s.cursor ≤ s.image.size ∧ s.cursor = s.image.size ∧ s.event = some .endOfRun ∧
    Ready (at0 []) ∧ (at0 []).cursor = (at0 []).image.size := by decide

/-- Both ways, at the ends of the ranges. -/
theorem witness_UnrecognizedByteStep_leading :
    (Ready (at0 [0xFF#8]) ∧ (at0 [0xFF#8]).image.fetch 0 = some 0xFF#8) ∧ UnmatchedLeadingByte 0xFF#8 ∧
    UnmatchedLeadingByte 0x04#8 ∧ UnmatchedLeadingByte 0x27#8 ∧ ¬ UnmatchedLeadingByte 0x28#8 :=
  ⟨by decide, by decide, by decide, by decide, by decide⟩
theorem witness_UnrecognizedByteStep_reg :
    (Ready (at0 [0x83#8, 0xD0#8]) ∧ (at0 [0x83#8, 0xD0#8]).image.fetch 0 = some 0x83#8 ∧
      (at0 [0x83#8, 0xD0#8]).image.fetch 1 = some 0xD0#8 ∧ UnmappedSecondByte 0x83#8 0xD0#8) ∧
    UnmappedSecondByte 0xC6#8 0x48#8 ∧ ¬ UnmappedSecondByte 0xC6#8 0xC0#8 ∧ ¬ UnmappedSecondByte 0x80#8 0xE8#8 := by decide

/-- One byte short, and just complete. -/
theorem witness_TruncationExactlyWhenBytesAreMissing :
    Ready (at0 [0xB8#8, 0x05#8]) ∧ (at0 [0xB8#8, 0x05#8]).image.wf = true ∧
    (at0 [0xB8#8, 0x05#8]).image.fetch 0 = some 0xB8#8 ∧
    neededLength 0xB8#8 (some 0x05#8) = 3 ∧ (at0 [0xB8#8, 0x05#8]).event = some .fault ∧
    neededLength 0x89#8 none = 2 ∧ (at0 [0x89#8]).event = some .fault ∧ neededLength 0xF4#8 none = 1 := by decide

theorem witness_CompleteInstructionAdvancesByItsLength :
    Ready (at0 [0xB8#8, 0x05#8, 0x00#8]) ∧ (at0 [0xB8#8, 0x05#8, 0x00#8]).image.wf = true ∧
    (at0 [0xB8#8, 0x05#8, 0x00#8]).image.fetch 0 = some 0xB8#8 ∧
    0 + neededLength 0xB8#8 (some 0x05#8) ≤ (at0 [0xB8#8, 0x05#8, 0x00#8]).image.size := by decide

/-- `io_error` in both phases of a run that is not over. -/
theorem witness_IoErrorEndsTheRun :
    let s := { State.reset with host := [⟨none, true⟩] }
    let t := { at0 [0x90#8] with host := [⟨none, true⟩] }
    s.resetNow = none ∧ s.ioErrorNow = true ∧ s.phase = .start ∧
    t.resetNow = none ∧ t.ioErrorNow = true ∧ t.phase = .awaiting := by decide

/-- Both terminal phases, one with `io_error` asserted. -/
theorem witness_TerminalPhasesRest :
    let s := { State.reset with phase := .exhausted, cause := .endOfInput }
    let t := { State.reset with phase := .faulted, cause := .truncatedStream, host := [⟨none, true⟩] }
    Terminal s ∧ s.resetNow = none ∧ Terminal t ∧ t.resetNow = none ∧ t.ioErrorNow = true := by decide

theorem witness_HostResetFromAnyState :
    let s := { State.reset with phase := .faulted, cause := .ioFailure, host := [⟨some [0x90#8], true⟩] }
    s.resetNow = some [0x90#8] ∧ HostIdle (s.sampled.hostReset [0x90#8]) := by decide

/-- The nine points, each with the conditions of the points after it where they can hold too. -/
theorem witness_EventPriority :
    let p1 := { at0 [0x90#8] with host := [⟨some [], true⟩] }
    let p2 := { State.reset with host := [⟨none, true⟩] }
    (p1.image.wf = true ∧ p1.resetNow ≠ none) ∧ (p2.resetNow = none ∧ ¬ Terminal p2 ∧ p2.ioErrorNow = true) ∧
    (HostIdle State.reset ∧ State.reset.phase = .start) ∧
    (Ready (at0 []) ∧ (at0 []).cursor = (at0 []).image.size) ∧
    (Ready (at0 [0xF4#8]) ∧ (at0 [0xF4#8]).image.fetch 0 = some 0xF4#8 ∧ UnmatchedLeadingByte 0xF4#8) ∧
    (Ready (at0 [0xC7#8]) ∧ (at0 [0xC7#8]).image.fetch 0 = some 0xC7#8 ∧ HasSecondByte 0xC7#8 ∧
      0 + 1 = (at0 [0xC7#8]).image.size) ∧
    (Ready (at0 [0xC6#8, 0x48#8]) ∧ (at0 [0xC6#8, 0x48#8]).image.fetch 1 = some 0x48#8 ∧
      UnmappedSecondByte 0xC6#8 0x48#8 ∧ neededLength 0xC6#8 (some 0x48#8) = 1) ∧
    (at0 [0x83#8, 0xC3#8]).image.size < 0 + neededLength 0x83#8 (some 0xC3#8) ∧
    (2 ≤ neededLength 0x83#8 (some 0xC3#8) ∧
      0 + neededLength 0x83#8 (some 0xC3#8) ≤ (at0 [0x83#8, 0xC3#8, 0x05#8]).image.size) := by decide

/-- A step with each event label, and one with none. -/
theorem witness_EventTellsWhatTheStepDid :
    State.reset.event = some .header ∧ (at0 [0x89#8, 0xD8#8]).event = some .line ∧
    (at0 [0xF4#8]).event = some .unrecognized ∧ (at0 []).event = some .endOfRun ∧ (at0 [0x89#8]).event = some .fault ∧
    { State.reset with phase := .exhausted, cause := .endOfInput : State }.event = none ∧
    (shown (step (at0 [0x89#8, 0xD8#8]))).isSome = true := by decide

/-- A state in the middle of a run, after the header and one line. -/
def midRun : State :=
  { at0 [0x89#8, 0xD8#8, 0xB0#8, 0x05#8] with cursor := 2, out := headerText ++ "mov ax, bx\n".toList }

theorem witness_StepKeepsTheInvariant :
    Inv midRun ∧ shown (step midRun) = some (headerText ++ "mov ax, bx\nmov al, 5\n".toList, 4, .awaiting, .none) :=
  ⟨⟨by decide, by decide, by decide, by decide, by decide, by decide, by decide⟩, by decide⟩

theorem witness_StepKeepsTheListing :
    (shown (step midRun)).isSome = true ∧ midRun.image.wf = true ∧ Listing midRun :=
  ⟨by decide, by decide, .inr (.inr ⟨by decide, [.movRmReg false true 3#3 (.reg 0#3)],
    ⟨⟨[0xB0#8, 0x05#8], by decide⟩, rfl⟩, by decide, by decide⟩)⟩

theorem witness_StepKeepsTheOutputGrammar : (shown (step midRun)).isSome = true ∧ OutputWellFormed midRun :=
  ⟨by decide, .inr (.inr ⟨by decide, [['m', 'o', 'v', ' ', 'a', 'x', ',', ' ', 'b', 'x', '\n']], fun l hl => by
    rw [List.mem_singleton] at hl
    subst hl
    exact .inl ⟨['m', 'o', 'v'], by decide, ['a', 'x'], ['b', 'x'], .inl ⟨by decide, .inl (by decide)⟩, by decide⟩,
    by decide⟩)⟩

theorem witness_StepKeepsTheCharset :
    (shown (step midRun)).isSome = true ∧ (midRun.out.all fun c => Config.charset.elem c) = true ∧ midRun.out ≠ [] := by decide

theorem witness_OutputIsAppendOnly : midRun.resetNow = none ∧ (shown (step midRun)).isSome = true := by decide

/-- A cause that is set, and one that is not. -/
theorem witness_CauseAgreesAndIsSticky :
    let s := { midRun with phase := .faulted, cause := .truncatedStream, host := [⟨none, true⟩] }
    CauseAgrees s ∧ s.cause ≠ .none ∧ s.resetNow = none ∧ (shown (step s)).isSome = true ∧ CauseAgrees midRun := by decide

theorem witness_ImageIsNeverWritten : midRun.resetNow = none ∧ (shown (step midRun)).isSome = true := by decide

/-- A step that moves on, and one that ends the run. -/
theorem witness_CursorMovesForward :
    midRun.resetNow = none ∧ midRun.phase = .awaiting ∧ (shown (step midRun)).isSome = true ∧
    shown (step (at0 [])) = some ([], 0, .exhausted, .endOfInput) := by decide

/-- Both ends of a run: the whole image consumed, and a truncated instruction. -/
theorem witness_RunEndsAtTheEndOrAtATruncatedInstruction :
    shown (core.run 3 (runStart [0xF4#8])) = some (headerText ++ "; f4\n".toList, 1, .exhausted, .endOfInput) ∧
    shown (core.run 2 (runStart [0xB8#8])) = some (headerText, 0, .faulted, .truncatedStream) := by decide

theorem witness_PlacedWordRunsNext :
    decodeTableWord 16 0x03C1 = some (.addRmReg true true 0b000#3 (.reg 0b001#3)) := by decide

/-- Well-formed instructions, one with an examined byte. -/
theorem witness_DecodeOfEncode :
    Instr.wf (.cmpRmImm true true (.direct 4834#16) (.byte 29#8)) = true ∧
    Instr.wf (.unrecognized 0xC7#8 (some 0xF8#8)) = true := by decide

theorem witness_EncodeOfDecode :
    decode [0xC7#8, 0xF8#8] = .ok (.unrecognized 0xC7#8 (some 0xF8#8)) [0xF8#8] := by decide

/-- The longest instruction followed by more bytes, and the longest truncation. -/
theorem witness_DecodeExaminesAtMostSixBytes :
    decode [0xC7#8, 0x06#8, 0xE8#8, 0x03#8, 0x2C#8, 0x01#8, 0x90#8] =
      .ok (.movRmImm true (.direct 1000#16) (.word 300#16)) [0x90#8] ∧
    decode [0xC7#8, 0x06#8, 0xE8#8, 0x03#8, 0x2C#8] = .truncatedStream := by decide

/-- Both immediate widths and both displacement widths. -/
theorem witness_LengthsByFormat :
    (∀ i ∈ [Instr.movRmReg true true 0#3 (.direct 5#16), .addRmReg true true 0#3 (.direct 5#16),
      .subRmReg true true 0#3 (.direct 5#16), .cmpRmReg true true 0#3 (.direct 5#16),
      .addRmImm false true (.direct 5#16) (.word 1#16), .subRmImm false true (.direct 5#16) (.word 1#16),
      .cmpRmImm false true (.direct 5#16) (.word 1#16), .movRmImm true (.direct 5#16) (.word 1#16),
      .addRmImm true true (.reg 0#3) (.byte 1#8), .movRegImm true 0#3 (.word 5#16)], i.wf = true) := by decide

/-- Two bytes that just exist and two that just do not. -/
theorem witness_MemReadIsAllOrNothing :
    (2 ∈ [1, 2] ∧ 0 + 2 ≤ [0x05#8, 0x00#8].length) ∧ [0x05#8, 0x00#8].length < 1 + 2 ∧
    [0x05#8, 0x00#8].length < 2 + 1 := by decide

theorem witness_AddressingResolverCases : (0b111#3 : RegIdx) ≠ 0b110#3 := by decide

/-- The premise on `r_m` at both its neighbours, and the three encodings of `mov ax, [bx]` of table 2.11. -/
theorem witness_RedundantEncodingsPrintAlike :
    (0b111#3 : RegIdx) ≠ 0b110#3 ∧ (0b101#3 : RegIdx) ≠ 0b110#3 ∧
    instrText (.movRmReg true true 0#3 (.indexed 0b111#3 none)) = "mov ax, [bx]\n".toList ∧
    instrText (.movRmReg true true 0#3 (.indexed 0b111#3 (some (.byte 0#8)))) = "mov ax, [bx]\n".toList ∧
    instrText (.movRmReg true true 0#3 (.indexed 0b111#3 (some (.word 0#16)))) = "mov ax, [bx]\n".toList := by decide

theorem witness_ResolverConsumesDispLen :
    resolveRegMem 0b01#2 0b110#3 [0x00#8, 0x90#8] = some (.indexed 0b110#3 (some (.byte 0#8)), [0x90#8]) ∧
    resolveRegMem 0b10#2 0b110#3 [0x00#8] = none := by decide

end Sys2Proof.Tests
end

section
/-! PROOFS. What a line of the listing is made of: characters of the listing's alphabet (00_scope.md section 4) that
are no line feed, up to the one line feed that ends it. -/

namespace Sys2Proof.Machine

/-- The characters that can stand before the line feed of a line: those of the charset, the line feed excepted. -/
def LineBody (t : Text) : Prop := ∀ c ∈ t, c ∈ Config.charset ∧ c ≠ '\n'

namespace LineBody

/-- The test of a concrete text, character by character. -/
theorem of_all {t : Text} (h : (t.all fun c => Config.charset.elem c && c != '\n') = true) : LineBody t := by
  simpa [LineBody] using h

theorem append {t u : Text} (ht : LineBody t) (hu : LineBody u) : LineBody (t ++ u) :=
  fun c hc => (List.mem_append.1 hc).elim (ht c) (hu c)

theorem newline_not_mem {t : Text} (ht : LineBody t) : '\n' ∉ t := fun hc => (ht _ hc).2 rfl

/-! ### The constant texts -/

theorem space : LineBody [' '] := of_all (by decide)
theorem comma : LineBody [',', ' '] := of_all (by decide)
theorem semicolon : LineBody [';', ' '] := of_all (by decide)
theorem leftBracket : LineBody ['['] := of_all (by decide)
theorem rightBracket : LineBody [']'] := of_all (by decide)
theorem plus : LineBody [' ', '+', ' '] := of_all (by decide)
theorem spacedMinus : LineBody [' ', '-', ' '] := of_all (by decide)
theorem minus : LineBody ['-'] := of_all (by decide)
theorem mnMov : LineBody mnMov := of_all (by decide)
theorem mnAdd : LineBody mnAdd := of_all (by decide)
theorem mnSub : LineBody mnSub := of_all (by decide)
theorem mnCmp : LineBody mnCmp := of_all (by decide)

/-! ### Table entries and numerals -/

theorem regName (w : Bool) (i : RegIdx) : LineBody (regName w i) :=
  of_all (by revert w i; decide)

theorem eaBase (r_m : RegIdx) : LineBody (eaBase r_m) :=
  of_all (by revert r_m; decide)

theorem sizeKeyword (w : Bool) : LineBody (sizeKeyword w) :=
  of_all (by revert w; decide)

theorem hexDigit (n : BitVec 4) : LineBody [hexDigit n] :=
  of_all (by revert n; decide)

theorem hex2 (b : Byte) : LineBody (hex2 b) := (hexDigit _).append (hexDigit _)

theorem digitChar {d : Nat} (h : d < 10) : LineBody [Nat.digitChar d] :=
  of_all (by revert d; decide)

theorem dec (v : Nat) : LineBody (dec v) := by
  induction v using Nat.strongRecOn with
  | ind v ih =>
    by_cases h : v < 10
    · rw [dec_of_lt v h]
      exact digitChar h
    · rw [dec_step v (by omega)]
      exact (ih (v / 10) (by omega)).append (digitChar (by omega))

/-! ### Operands -/

theorem renderBased {base : Text} (hb : LineBody base) (disp : Int) : LineBody (renderBased base disp) := by
  have hopen := leftBracket.append hb
  unfold Machine.renderBased
  split
  · exact hopen.append rightBracket
  · split
    · exact ((hopen.append plus).append (dec _)).append rightBracket
    · exact ((hopen.append spacedMinus).append (dec _)).append rightBracket

theorem render_mem_none (addr : Int) : LineBody (render (.mem none addr)) :=
  (leftBracket.append (dec _)).append rightBracket

theorem render_imm (v : Int) : LineBody (render (.imm v)) := by
  rw [Machine.render_imm, renderImm]
  split
  · exact dec _
  · exact minus.append (dec _)

theorem render_regName (w : Bool) (i : RegIdx) : LineBody (render (.reg (Machine.regName w i))) := regName w i

theorem render_regMemOperand (w : Bool) (rm : RegMem) : LineBody (render (regMemOperand w rm)) := by
  cases rm with
  | reg i => exact render_regName w i
  | direct addr => exact render_mem_none _
  | indexed r_m disp => exact renderBased (eaBase r_m) _

theorem immDestText (w : Bool) (rm : RegMem) : LineBody (immDestText w rm) := by
  unfold Machine.immDestText
  split
  · exact render_regMemOperand w rm
  · exact (sizeKeyword w).append (render_regMemOperand w rm)

end LineBody

/-! ### Lines -/

/-- A text of the line alphabet and one line feed after it (rules R18, R65). -/
def WholeLine (t : Text) : Prop := ∃ body, LineBody body ∧ t = body ++ ['\n']

namespace WholeLine

theorem line {mn dest src : Text} (hm : LineBody mn) (hd : LineBody dest) (hs : LineBody src) :
    WholeLine (line mn dest src) :=
  ⟨_, (((hm.append .space).append hd).append .comma).append hs, rfl⟩

theorem rmrLine {mn : Text} (hm : LineBody mn) (d w : Bool) (reg : RegIdx) (rm : RegMem) :
    WholeLine (rmrLine mn d w reg rm) := by
  unfold Machine.rmrLine
  split
  · exact line hm (.render_regName w reg) (.render_regMemOperand w rm)
  · exact line hm (.render_regMemOperand w rm) (.render_regName w reg)

theorem rmiLine {mn : Text} (hm : LineBody mn) (w : Bool) (rm : RegMem) (imm : StreamField) :
    WholeLine (rmiLine mn w rm imm) :=
  line hm (.immDestText w rm) (.render_imm _)

theorem commentLine (b0 : Byte) : WholeLine (commentLine b0) :=
  ⟨_, LineBody.semicolon.append (.hex2 b0), rfl⟩

/-- Every instruction, the fallback row included, is printed as one whole line (rule R65). -/
theorem instrText (i : Instr) : WholeLine (instrText i) := by
  cases i with
  | movRmReg d w reg rm => exact rmrLine .mnMov d w reg rm
  | movRmImm w rm imm => exact rmiLine .mnMov w rm imm
  | movRegImm w reg imm => exact line .mnMov (.render_regName w reg) (.render_imm _)
  | movAccMem w addr => exact line .mnMov (.render_regName w _) (.render_mem_none _)
  | movMemAcc w addr => exact line .mnMov (.render_mem_none _) (.render_regName w _)
  | addRmReg d w reg rm => exact rmrLine .mnAdd d w reg rm
  | subRmReg d w reg rm => exact rmrLine .mnSub d w reg rm
  | cmpRmReg d w reg rm => exact rmrLine .mnCmp d w reg rm
  | addRmImm sx w rm imm => exact rmiLine .mnAdd w rm imm
  | subRmImm sx w rm imm => exact rmiLine .mnSub w rm imm
  | cmpRmImm sx w rm imm => exact rmiLine .mnCmp w rm imm
  | unrecognized b0 examined => exact commentLine b0

end WholeLine

end Sys2Proof.Machine
end

section
/-! PROOFS. The state of the block (10_state.md): its reset values, its output, its cause. -/

namespace Sys2Proof.Proofs

open Sys2Proof.Machine Sys2Proof.Safety

/-- Settles O28: each reset value is the one the model's own law gives. -/
theorem resetValues : Obligations.ResetValues := by
  unfold Obligations.ResetValues
  exact ⟨reset_cursor, congrArg Phase.code reset_phase, congrArg Cause.code reset_cause, reset_out⟩

/-! ### The output -/

/-- What a step without reset does to the output (rule R18). -/
theorem step_out_cases {s t : State} (hr : s.resetNow = none) (h : step s = .next t) :
    t.out = s.out ∨ t.out = s.out ++ header ∨ ∃ i, t.out = s.out ++ instrText i := by
  obtain ⟨bytes, hsome, -⟩ | ⟨-, -, rfl⟩ | ⟨-, -, -, rfl⟩ | ⟨-, -, rfl⟩ | ⟨-, -, rfl⟩ | ⟨-, -, rfl⟩ |
    ⟨-, i, -, -, rfl⟩ := step_cases s t h
  · simp [hr] at hsome
  · exact .inl rfl
  · exact .inl rfl
  · exact .inr (.inl rfl)
  · exact .inl rfl
  · exact .inl rfl
  · exact .inr (.inr ⟨i, rfl⟩)

/-- Settles O35: a step's output is unchanged, or grows by the header, or by an instruction's text, which is one
whole line. -/
theorem outputIsAppendOnly : Obligations.OutputIsAppendOnly := by
  unfold Obligations.OutputIsAppendOnly
  refine ⟨reset_out, fun s t hr h => ?_⟩
  obtain hsame | hheader | ⟨i, hline⟩ := step_out_cases hr h
  · exact .inl hsame
  · exact .inr (.inl hheader)
  · obtain ⟨body, hbody, htext⟩ := WholeLine.instrText i
    exact .inr (.inr ⟨body, hbody.newline_not_mem, htext ▸ hline⟩)

/-! ### The cause -/

/-- The agreement of `cause` with `phase` speaks of these two registers only. -/
theorem causeAgrees_congr {s t : State} (hs : CauseAgrees s) (hphase : t.phase = s.phase)
    (hcause : t.cause = s.cause) : CauseAgrees t := by
  unfold CauseAgrees
  rwa [hphase, hcause]

theorem causeAgrees_of_running {s : State} (hphase : s.phase = .start ∨ s.phase = .awaiting)
    (hcause : s.cause = .none) : CauseAgrees s := by
  obtain hp | hp := hphase <;> simp [CauseAgrees, hp, hcause]

theorem causeAgrees_raise_endOfInput (s : State) : CauseAgrees (s.raise .endOfInput) := by simp [CauseAgrees]

theorem causeAgrees_raise_truncatedStream (s : State) : CauseAgrees (s.raise .truncatedStream) := by
  simp [CauseAgrees]

theorem causeAgrees_raise_ioFailure (s : State) : CauseAgrees (s.raise .ioFailure) := by simp [CauseAgrees]

/-- Every step keeps the agreement of `cause` with `phase` (rule R17). -/
theorem step_keeps_causeAgrees {s t : State} (hs : CauseAgrees s) (h : step s = .next t) : CauseAgrees t := by
  have ⟨hrunning, _, _⟩ := hs
  obtain ⟨bytes, -, rfl⟩ | ⟨-, -, rfl⟩ | ⟨-, -, -, rfl⟩ | ⟨-, hp, rfl⟩ | ⟨-, -, rfl⟩ | ⟨-, -, rfl⟩ |
    ⟨-, i, -, -, rfl⟩ := step_cases s t h
  · exact causeAgrees_of_running (.inl rfl) rfl
  · exact causeAgrees_congr hs rfl rfl
  · exact causeAgrees_raise_ioFailure _
  · exact causeAgrees_of_running (.inr rfl) (hrunning.2 (.inl hp))
  · exact causeAgrees_raise_endOfInput _
  · exact causeAgrees_raise_truncatedStream _
  · exact causeAgrees_congr hs rfl rfl

/-- Where `cause` agrees with `phase`, a set cause means that the run is over. -/
theorem terminal_of_cause_ne_none {s : State} (hs : CauseAgrees s) (hc : s.cause ≠ .none) : Terminal s := by
  obtain ⟨hrunning, -, -⟩ := hs
  cases hp : s.phase with
  | start => exact absurd (hrunning.2 (.inl hp)) hc
  | awaiting => exact absurd (hrunning.2 (.inr hp)) hc
  | exhausted => exact .inl hp
  | faulted => exact .inr hp

/-- In a terminal phase a step without reset rests (rule R112). -/
theorem step_of_terminal {s : State} (hr : s.resetNow = none) (hs : Terminal s) : step s = .next s.sampled := by
  obtain hp | hp := hs <;> simp [step, State.action, hr, hp, Action.perform]

/-- `cause` holds one of the four codes of rule R17. -/
theorem cause_code_mem (c : Cause) : c.code ∈ [0#3, 1#3, 3#3, 4#3] := by cases c <;> decide

/-- Settles O36: the agreement is kept by every kind of step, and a state with a set cause is terminal, where only
the host's reset does anything. -/
theorem causeAgreesAndIsSticky : Obligations.CauseAgreesAndIsSticky := by
  unfold Obligations.CauseAgreesAndIsSticky
  refine ⟨rfl, rfl, rfl, rfl, rfl, causeAgrees_of_running (.inl reset_phase) reset_cause, fun s t hs h =>
    ⟨step_keeps_causeAgrees hs h, cause_code_mem _, fun hc hr => ?_⟩⟩
  have hrest := step_of_terminal hr (terminal_of_cause_ne_none hs hc)
  obtain rfl : s.sampled = t := by simpa [hrest] using h
  exact sampled_cause s

end Sys2Proof.Proofs
end

section
/-! PROOFS. The reads of the input image and of the stream (20_memory.md): `MemRead` and `next_value`. -/

namespace Sys2Proof.Proofs

open Sys2Proof.Machine

/-! ### MemRead -/

/-- `MemRead` of at least one byte on the image of `bytes`: all the bytes, or nothing (rule R28). -/
theorem read_ofBytes (bytes : List Byte) (addr : Nat) {n : Nat} (hn : n ≠ 0) :
    (Memory.ofBytes bytes).read addr n =
      if addr + n ≤ bytes.length then some ((bytes.drop addr).take n) else none := by
  rw [Memory.read_of_wf _ (Memory.wf_ofBytes bytes), Memory.size_ofBytes, Memory.bytes_ofBytes]
  simp only [hn, false_or]

/-- Settles O49: the image of any bytes is canonical, so `MemRead` is decided by the comparison of `addr + n` with
the image's length. -/
theorem memReadIsAllOrNothing : Obligations.MemReadIsAllOrNothing := by
  unfold Obligations.MemReadIsAllOrNothing
  intro bytes addr n hn
  have hread := read_ofBytes bytes addr (n := n) (by rintro rfl; simp at hn)
  exact ⟨fun hin => hread.trans (if_pos hin), fun hout => hread.trans (if_neg (Nat.not_le.2 hout))⟩

/-! ### next_value -/

@[simp] theorem nextValue_nil (word : Bool) : nextValue word [] = none := by cases word <;> rfl

@[simp] theorem nextValue_word_single (b : Byte) : nextValue true [b] = none := rfl

/-- An 8-bit value is one byte, sign-extended (rules R30, R99). -/
theorem nextValue_byte (b : Byte) (rest : List Byte) : nextValue false (b :: rest) = some (b.toInt, rest) :=
  congrArg (fun v => some (v, rest)) (fieldValue_byte b)

/-- A 16-bit value is two bytes, low byte first, in two's complement (rules R30, R100). -/
theorem nextValue_word (lo hi : Byte) (rest : List Byte) :
    nextValue true (lo :: hi :: rest) = some (sext16 (lo.toNat + 256 * hi.toNat), rest) := by
  have hvalue : fieldValue (.word (wordOfBytes lo hi)) = sext16 (lo.toNat + 256 * hi.toNat) := by
    rw [fieldValue, toNat_wordOfBytes]
  exact congrArg (fun v => some (v, rest)) hvalue

/-- Settles O50: nothing at the end of the stream or inside a 16-bit value; otherwise the value of the bytes
consumed. -/
theorem nextValueReadsExactly : Obligations.NextValueReadsExactly := by
  unfold Obligations.NextValueReadsExactly
  intro b lo hi rest
  exact ⟨nextValue_nil false, nextValue_nil true, nextValue_word_single b, nextValue_byte b rest,
    nextValue_word lo hi rest⟩

end Sys2Proof.Proofs
end

section
/-! PROOFS. The output stays in the grammar of rule R65: the numerals, the operands, the lines, the steps. -/

namespace Sys2Proof.Proofs

open Sys2Proof.Machine Sys2Proof.Safety

/-! ### Numerals (rule R79) -/

theorem dec_ne_nil (v : Nat) : dec v ≠ [] := Nat.toDigits_ne_nil

theorem isDigit_digitChar : ∀ d < 10, isDigit (Nat.digitChar d) = true := by decide

theorem isNumber_digitChar : ∀ d < 10, isNumber [Nat.digitChar d] = true := by decide

theorem digitChar_ne_zero : ∀ d < 10, d ≠ 0 → Nat.digitChar d ≠ '0' := by decide

/-- The numeral `0` is written for zero alone. -/
theorem dec_ne_zero {v : Nat} (hv : v ≠ 0) : dec v ≠ ['0'] := by
  by_cases h : v < 10
  · simpa [dec_of_lt v h] using digitChar_ne_zero v h hv
  · rw [dec_step v (by omega)]
    simp [List.append_eq_singleton_iff, dec_ne_nil]

/-- A digit after a number other than `0` makes a number: no leading zero arises. -/
theorem isNumber_append_digit {t : Text} {c : Char} (ht : isNumber t = true) (hne : t ≠ ['0'])
    (hc : isDigit c = true) : isNumber (t ++ [c]) = true := by
  cases t with
  | nil => simp [isNumber] at ht
  | cons d ds =>
    have hzero : ¬ (d = '0' ∧ ds = []) := by simpa using hne
    obtain ⟨⟨hd, hdigit⟩, hdigits⟩ : (d ≠ '0' ∧ isDigit d = true) ∧ ∀ x ∈ ds, isDigit x = true := by
      simpa [isNumber, hzero] using ht
    simpa [isNumber, hd, hdigit, hc] using hdigits

/-- The decimal numeral is a number of the grammar (rules R65, R79). -/
theorem isNumber_dec (v : Nat) : isNumber (dec v) = true := by
  induction v using Nat.strongRecOn with
  | ind v ih =>
    by_cases h : v < 10
    · rw [dec_of_lt v h]
      exact isNumber_digitChar v h
    · rw [dec_step v (by omega)]
      exact isNumber_append_digit (ih (v / 10) (by omega)) (dec_ne_zero (by omega))
        (isDigit_digitChar _ (by omega))

/-! ### Operands (rules R80 to R84) -/

theorem regName_mem_registerNames (w : Bool) (i : RegIdx) : regName w i ∈ registerNames := by
  revert w i; decide

theorem eaBase_mem_baseExpressions (r_m : RegIdx) : eaBase r_m ∈ baseExpressions := by
  revert r_m; decide

/-- Beside a base, only a displacement other than zero is written (rule R81). -/
theorem isMem_renderBased {base : Text} (hb : base ∈ baseExpressions) (disp : Int) :
    IsMem (renderBased base disp) := by
  obtain hneg | rfl | hpos := lt_trichotomy disp 0
  · exact .inr (.inl ⟨base, hb, _, isNumber_dec _, dec_ne_zero (by omega), .inr (renderBased_neg base disp hneg)⟩)
  · exact .inl ⟨base, hb, renderBased_zero base⟩
  · exact .inr (.inl ⟨base, hb, _, isNumber_dec _, dec_ne_zero (by omega), .inl (renderBased_pos base disp hpos)⟩)

theorem isMem_render_direct (addr : Int) : IsMem (render (.mem none addr)) :=
  .inr (.inr ⟨_, isNumber_dec _, render_direct addr⟩)

theorem isImm_render_imm (v : Int) : IsImm (render (.imm v)) := by
  rw [render_imm]
  obtain hneg | hnonneg := lt_or_ge v 0
  · exact .inr ⟨_, isNumber_dec _, renderImm_neg v hneg⟩
  · exact .inl (renderImm_nonneg v hnonneg ▸ isNumber_dec _)

/-- A register-or-memory operand is a register of the grammar exactly when `mod = 11` (rules R73 to R75). -/
theorem render_regMemOperand_cases (w : Bool) (rm : RegMem) :
    (rm.isReg = true ∧ render (regMemOperand w rm) ∈ registerNames) ∨
    (rm.isReg = false ∧ IsMem (render (regMemOperand w rm))) := by
  cases rm with
  | reg i => exact .inl ⟨rfl, regName_mem_registerNames w i⟩
  | direct addr => exact .inr ⟨rfl, isMem_render_direct _⟩
  | indexed r_m disp => exact .inr ⟨rfl, isMem_renderBased (eaBase_mem_baseExpressions r_m) _⟩

theorem sizeKeyword_eq (w : Bool) :
    ∃ size ∈ [['b', 'y', 't', 'e'], ['w', 'o', 'r', 'd']], sizeKeyword w = size ++ [' '] := by
  revert w; decide

/-- The size keyword stands exactly before a memory destination of an immediate (rule R84). -/
theorem isOperandPair_immDestText (w : Bool) (rm : RegMem) (v : Int) :
    IsOperandPair (immDestText w rm) (render (.imm v)) := by
  unfold immDestText
  obtain ⟨hrm, hreg⟩ | ⟨hrm, hmem⟩ := render_regMemOperand_cases w rm
  · rw [if_pos hrm]
    exact .inl ⟨hreg, .inr (.inr (isImm_render_imm v))⟩
  · obtain ⟨size, hsize, hkeyword⟩ := sizeKeyword_eq w
    rw [if_neg (by simp [hrm]), hkeyword]
    exact .inr (.inr ⟨size, hsize, _, rfl, hmem, isImm_render_imm v⟩)

/-! ### Lines (rules R65, R85) -/

/-- The mnemonics of the grammar. -/
abbrev IsMnemonic (mn : Text) : Prop := mn ∈ [['m', 'o', 'v'], ['a', 'd', 'd'], ['s', 'u', 'b'], ['c', 'm', 'p']]

theorem isMnemonic_mnMov : IsMnemonic mnMov := by decide
theorem isMnemonic_mnAdd : IsMnemonic mnAdd := by decide
theorem isMnemonic_mnSub : IsMnemonic mnSub := by decide
theorem isMnemonic_mnCmp : IsMnemonic mnCmp := by decide

theorem isLine_line {mn dest src : Text} (hmn : IsMnemonic mn) (hpair : IsOperandPair dest src) :
    IsLine (line mn dest src) :=
  .inl ⟨mn, hmn, dest, src, hpair, rfl⟩

/-- One operand of format RMR is a register, so at most one is a memory operand, and no keyword is written. -/
theorem isLine_rmrLine {mn : Text} (hmn : IsMnemonic mn) (d w : Bool) (reg : RegIdx) (rm : RegMem) :
    IsLine (rmrLine mn d w reg rm) := by
  have hname := regName_mem_registerNames w reg
  have hrm : render (regMemOperand w rm) ∈ registerNames ∨ IsMem (render (regMemOperand w rm)) :=
    (render_regMemOperand_cases w rm).imp And.right And.right
  unfold rmrLine
  split
  · exact isLine_line hmn (.inl ⟨hname, hrm.imp_right .inl⟩)
  · obtain hreg | hmem := hrm
    · exact isLine_line hmn (.inl ⟨hreg, .inl hname⟩)
    · exact isLine_line hmn (.inr (.inl ⟨hmem, hname⟩))

theorem isLine_rmiLine {mn : Text} (hmn : IsMnemonic mn) (w : Bool) (rm : RegMem) (imm : StreamField) :
    IsLine (rmiLine mn w rm imm) :=
  isLine_line hmn (isOperandPair_immDestText w rm _)

theorem hexDigit_mem_hexDigits (n : BitVec 4) : hexDigit n ∈ hexDigits := by
  revert n; decide

theorem isLine_commentLine (b0 : Byte) : IsLine (commentLine b0) :=
  .inr ⟨_, hexDigit_mem_hexDigits _, _, hexDigit_mem_hexDigits _, rfl⟩

/-- Every instruction, the fallback row included, is printed as one line of the grammar. -/
theorem isLine_instrText (i : Instr) : IsLine (instrText i) := by
  cases i with
  | movRmReg d w reg rm => exact isLine_rmrLine isMnemonic_mnMov d w reg rm
  | movRmImm w rm imm => exact isLine_rmiLine isMnemonic_mnMov w rm imm
  | movRegImm w reg imm =>
    exact isLine_line isMnemonic_mnMov (.inl ⟨regName_mem_registerNames w reg, .inr (.inr (isImm_render_imm _))⟩)
  | movAccMem w addr =>
    exact isLine_line isMnemonic_mnMov (.inl ⟨regName_mem_registerNames w 0#3, .inr (.inl (isMem_render_direct _))⟩)
  | movMemAcc w addr =>
    exact isLine_line isMnemonic_mnMov (.inr (.inl ⟨isMem_render_direct _, regName_mem_registerNames w 0#3⟩))
  | addRmReg d w reg rm => exact isLine_rmrLine isMnemonic_mnAdd d w reg rm
  | subRmReg d w reg rm => exact isLine_rmrLine isMnemonic_mnSub d w reg rm
  | cmpRmReg d w reg rm => exact isLine_rmrLine isMnemonic_mnCmp d w reg rm
  | addRmImm sx w rm imm => exact isLine_rmiLine isMnemonic_mnAdd w rm imm
  | subRmImm sx w rm imm => exact isLine_rmiLine isMnemonic_mnSub w rm imm
  | cmpRmImm sx w rm imm => exact isLine_rmiLine isMnemonic_mnCmp w rm imm
  | unrecognized b0 examined => exact isLine_commentLine b0

/-! ### The whole output -/

theorem isOutput_header : IsOutput header := ⟨[], by simp, rfl⟩

/-- Another line keeps the output in the grammar. -/
theorem isOutput_append_line {t l : Text} (ht : IsOutput t) (hl : IsLine l) : IsOutput (t ++ l) := by
  obtain ⟨lines, hlines, rfl⟩ := ht
  refine ⟨lines ++ [l], fun x hx => ?_, by simp⟩
  obtain hx | hx := List.mem_append.1 hx
  · exact hlines x hx
  · exact List.mem_singleton.1 hx ▸ hl

/-- The form of the output speaks of the phase and the output only. -/
theorem outputWellFormed_congr {s t : State} (hs : OutputWellFormed s) (hphase : t.phase = s.phase)
    (hout : t.out = s.out) : OutputWellFormed t := by
  unfold OutputWellFormed
  rwa [hphase, hout]

theorem out_eq_nil_of_start {s : State} (hs : OutputWellFormed s) (hp : s.phase = .start) : s.out = [] := by
  obtain ⟨-, hout⟩ | ⟨-, hout⟩ | ⟨hne, -⟩ := hs
  · exact hout
  · exact hout
  · exact absurd hp hne

theorem isOutput_of_awaiting {s : State} (hs : OutputWellFormed s) (hp : s.phase = .awaiting) : IsOutput s.out := by
  obtain ⟨hq, -⟩ | ⟨hq, -⟩ | ⟨-, hout⟩ := hs
  · simp [hp] at hq
  · simp [hp] at hq
  · exact hout

/-- A stream failure ends a run before its header, with no output, or after it (rules R105, R123). -/
theorem outputWellFormed_raise_ioFailure {s : State} (hs : OutputWellFormed s) :
    OutputWellFormed (s.raise .ioFailure) := by
  obtain ⟨-, hout⟩ | ⟨-, hout⟩ | ⟨-, hout⟩ := hs
  · exact .inr (.inl ⟨rfl, hout⟩)
  · exact .inr (.inl ⟨rfl, hout⟩)
  · exact .inr (.inr ⟨by simp, hout⟩)

/-- Every step keeps the output in the grammar (rule R65). -/
theorem step_keeps_outputWellFormed {s t : State} (hs : OutputWellFormed s) (h : step s = .next t) :
    OutputWellFormed t := by
  have hsampled : OutputWellFormed s.sampled := outputWellFormed_congr hs rfl rfl
  have hheaded : s.phase = .awaiting → IsOutput s.out := isOutput_of_awaiting hs
  obtain ⟨bytes, -, rfl⟩ | ⟨-, -, rfl⟩ | ⟨-, -, -, rfl⟩ | ⟨-, hp, rfl⟩ | ⟨⟨hp, -⟩, -, rfl⟩ |
    ⟨⟨hp, -⟩, -, rfl⟩ | ⟨⟨hp, -⟩, i, -, -, rfl⟩ := step_cases s t h
  · exact .inl ⟨rfl, rfl⟩
  · exact hsampled
  · exact outputWellFormed_raise_ioFailure hsampled
  · have hnil := out_eq_nil_of_start hs hp
    exact .inr (.inr ⟨by simp, by simpa [hnil] using isOutput_header⟩)
  · exact .inr (.inr ⟨by simp, hheaded hp⟩)
  · exact .inr (.inr ⟨by simp, hheaded hp⟩)
  · exact .inr (.inr ⟨by simp [hp], isOutput_append_line (hheaded hp) (isLine_instrText i)⟩)

/-- Settles O33: the output is empty at reset; the step cases append nothing, the header to an empty output, or one
line of the grammar to a listing that has its header. -/
theorem stepKeepsTheOutputGrammar : Obligations.StepKeepsTheOutputGrammar := by
  unfold Obligations.StepKeepsTheOutputGrammar
  exact ⟨.inl ⟨reset_phase, reset_out⟩, fun s t hs h => step_keeps_outputWellFormed hs h⟩

end Sys2Proof.Proofs
end

section
/-! PROOFS. The three cases of the addressing resolver (rules R73 to R75), as the operand they give and the bytes
they consume. -/

namespace Sys2Proof.Proofs

open Sys2Proof.Machine

/-- What the resolver answers, as an operand under the word flag `w` and the rest of the stream. -/
def resolvedOperand (w : Bool) (md : BitVec 2) (r_m : RegIdx) (bytes : List Byte) : Option (Operand × List Byte) :=
  (resolveRegMem md r_m bytes).map fun a => (regMemOperand w a.1, a.2)

/-- `mod = 11` reads nothing (rule R73). -/
theorem resolvedOperand_reg (w : Bool) (r_m : RegIdx) (bytes : List Byte) :
    resolvedOperand w 0b11#2 r_m bytes = some (.reg (regName w r_m), bytes) := rfl

/-- `mod = 00` with `r_m = 110` is the unsigned 16-bit address (rule R74). -/
theorem resolvedOperand_direct (w : Bool) (bytes : List Byte) :
    resolvedOperand w 0b00#2 0b110#3 bytes = (nextWord bytes).map fun a => (.mem none a.1.toNat, a.2) := by
  simp [resolvedOperand, resolveRegMem, Function.comp_def]

/-- `mod = 00` with any other `r_m` is the base alone, and reads nothing (rule R75). -/
theorem resolvedOperand_base (w : Bool) {r_m : RegIdx} (h : r_m ≠ 0b110#3) (bytes : List Byte) :
    resolvedOperand w 0b00#2 r_m bytes = some (.mem (some (eaBase r_m)) 0, bytes) := by
  simp [resolvedOperand, resolveRegMem, h, dispValue]

/-- `mod = 01` is the base with a signed byte, the `next_value` of the stream (rule R75). -/
theorem resolvedOperand_dispByte (w : Bool) (r_m : RegIdx) (bytes : List Byte) :
    resolvedOperand w 0b01#2 r_m bytes =
      (nextValue false bytes).map fun a => (.mem (some (eaBase r_m)) a.1, a.2) := by
  simp [resolvedOperand, resolveRegMem, nextValue, Function.comp_def, dispValue]

/-- `mod = 10` is the base with a signed word, the `next_value` of the stream (rule R75). -/
theorem resolvedOperand_dispWord (w : Bool) (r_m : RegIdx) (bytes : List Byte) :
    resolvedOperand w 0b10#2 r_m bytes =
      (nextValue true bytes).map fun a => (.mem (some (eaBase r_m)) a.1, a.2) := by
  simp [resolvedOperand, resolveRegMem, nextValue, Function.comp_def, dispValue]

/-- Settles O51: the resolver's answer is a 16-bit read or a `next_value`, and each of these is decided by how many
bytes are left. -/
theorem addressingResolverCases : Obligations.AddressingResolverCases := by
  unfold Obligations.AddressingResolverCases
  intro w r_m bytes
  refine ⟨rfl, rfl, rfl, rfl, resolvedOperand_reg w r_m bytes, ?direct, fun h => resolvedOperand_base w h bytes,
    ?dispByte, ?dispWord⟩
  case direct =>
    refine (resolvedOperand_direct w bytes).trans ?_
    match bytes with
    | [] => rfl
    | [_] => rfl
    | lo :: hi :: rest => simp [toNat_wordOfBytes]
  case dispByte =>
    refine (resolvedOperand_dispByte w r_m bytes).trans ?_
    match bytes with
    | [] => rfl
    | b :: rest => simp [nextValue_byte]
  case dispWord =>
    refine (resolvedOperand_dispWord w r_m bytes).trans ?_
    match bytes with
    | [] => rfl
    | [_] => rfl
    | lo :: hi :: rest => simp [nextValue_word]

end Sys2Proof.Proofs
end

section
/-! PROOFS. The decimal numeral (rule R79) and the two constant tables (rules R68, R69, R71). -/

namespace Sys2Proof.Proofs

open Sys2Proof.Machine

/-- Reading the decimal numeral digit by digit gives its number (rule R79): `Nat.ofDigitChars` is the reading,
`Nat.toDigits` the numeral. -/
theorem ofDigitChars_dec (v : Nat) : Nat.ofDigitChars 10 (dec v) 0 = v := Nat.ofDigitChars_ten_toDigits

/-- Settles O54: the numeral reads back as its number, and it is a number of the grammar of rule R65. -/
theorem decimalNumeralsReadBack : Obligations.DecimalNumeralsReadBack := by
  unfold Obligations.DecimalNumeralsReadBack
  exact fun v => ⟨ofDigitChars_dec v, isNumber_dec v⟩

/-- Settles O48: each table is evaluated at its eight indices. -/
theorem constantTableContents : Obligations.ConstantTableContents := by
  unfold Obligations.ConstantTableContents
  refine ⟨?byteNames, ?wordNames, ?bases⟩
  case byteNames => decide
  case wordNames => decide
  case bases => decide

end Sys2Proof.Proofs
end

section
/-! PROOFS. The forward-only decoder against the pseudocode at absolute offsets (rule R118): read by read, then for
the formats that several families share, then for the step. -/

namespace Sys2Proof.Proofs

open Sys2Proof.Machine Sys2Proof.Safety

/-! ### Reads -/

/-- A read of the stream and a read at an absolute offset agree: neither finds its bytes, or the stream's read answers
a value with `rest` after it, and the other answers that value under `f`. -/
inductive SameRead {α β : Type} (f : α → β) (rest : List Byte) : Option (α × List Byte) → Option β → Prop where
  | missing : SameRead f rest none none
  | found (a : α) : SameRead f rest (some (a, rest)) (some (f a))

/-- Agreeing reads agree on what is made of their values. -/
theorem SameRead.map {α β γ δ : Type} {f : α → β} {rest : List Byte} {read : Option (α × List Byte)}
    {wread : Option β} (h : SameRead f rest read wread) (g : α → γ) (f' : γ → δ) (k : β → δ)
    (hcomm : ∀ a, f' (g a) = k (f a)) :
    SameRead f' rest (read.map fun r => (g r.1, r.2)) (wread.map k) := by
  cases h with
  | missing => exact .missing
  | found a =>
    simp only [Option.map_some, ← hcomm]
    exact .found (g a)

variable (m : Memory) (p : Nat) {n : Nat}

theorem sameRead_byte (hn : 1 ≤ n) :
    SameRead id (m.bytesFrom (p + 1) (n - 1)) (nextByte (m.bytesFrom p n)) (m.fetch p) := by
  obtain ⟨k, rfl⟩ := Nat.exists_eq_add_of_le' hn
  rw [nextByte_bytesFrom]
  cases m.fetch p with
  | none => exact .missing
  | some b => exact .found b

theorem sameRead_word (hn : 2 ≤ n) :
    SameRead BitVec.toNat (m.bytesFrom (p + 2) (n - 2)) (nextWord (m.bytesFrom p n)) (windowRead16 m p) := by
  obtain ⟨k, rfl⟩ := Nat.exists_eq_add_of_le' hn
  rw [nextWord_bytesFrom, windowRead16_eq]
  cases m.fetch p with
  | none => exact .missing
  | some lo =>
    cases m.fetch (p + 1) with
    | none => exact .missing
    | some hi => exact .found (wordOfBytes lo hi)

/-- The ImmediateReader (rule R77). -/
theorem sameRead_imm (wd : Bool) (hn : 2 ≤ n) :
    SameRead (fun imm => Operand.imm (fieldValue imm)) (m.bytesFrom (p + immLen wd) (n - immLen wd))
      (nextField wd (m.bytesFrom p n)) (windowReadImm m wd p) := by
  cases wd with
  | false => exact (sameRead_byte m p (Nat.le_of_succ_le hn)).map StreamField.byte _ _ fun _ => rfl
  | true => exact (sameRead_word m p hn).map StreamField.word _ _ fun _ => rfl

/-- The AddressingResolver, in the order of its rules (rules R73 to R75). -/
theorem sameRead_regMem (md : BitVec 2) (r_m : RegIdx) (w : Bool) (hn : 2 ≤ n) :
    SameRead (regMemOperand w) (m.bytesFrom (p + dispLen md r_m) (n - dispLen md r_m))
      (resolveRegMem md r_m (m.bytesFrom p n)) (windowResolve m md r_m w p) := by
  have hmd : md = 3#2 ∨ md = 0#2 ∧ r_m = 6#3 ∨ md = 0#2 ∧ r_m ≠ 6#3 ∨ md = 1#2 ∨ md = 2#2 := by
    revert md r_m; decide
  have hbyte := sameRead_byte m p (Nat.le_of_succ_le hn)
  have hword := sameRead_word m p hn
  obtain rfl | ⟨rfl, rfl⟩ | ⟨rfl, h6⟩ | rfl | rfl := hmd
  · exact .found (RegMem.reg r_m)
  · simpa [dispLen, resolveRegMem, windowResolve, Option.map_eq_bind, Option.bind_assoc, Function.comp_def] using
      hword.map RegMem.direct (regMemOperand w) (fun v => .mem none v) fun _ => rfl
  · simpa [dispLen, resolveRegMem, windowResolve, h6, dispValue] using
      SameRead.found (f := regMemOperand w) (.indexed r_m none)
  · simpa [dispLen, resolveRegMem, windowResolve, nextField, Function.comp_def] using
      hbyte.map (fun b => RegMem.indexed r_m (some (.byte b))) (regMemOperand w)
        (fun b => .mem (some (eaBase r_m)) (sext8 b.toNat)) fun _ => rfl
  · simpa [dispLen, resolveRegMem, windowResolve, nextField, Function.comp_def] using
      hword.map (fun v => RegMem.indexed r_m (some (.word v))) (regMemOperand w)
        (fun v => .mem (some (eaBase r_m)) (sext16 v)) fun _ => rfl

/-! ### Results -/

/-- The instruction prints `text` as a line of the listing and consumes `len` bytes (rule R109). -/
def PrintsLine (i : Instr) (text : Text) (len : Nat) : Prop :=
  instrLabel i = .line ∧ instrText i = text ∧ instrLength i = len

/-- The decoder's answer and the result of `Decode(IN, c)` are the same of the three results of rule R108. -/
inductive AgreesWith : Decoded → WindowResult → Prop where
  | line {i : Instr} {rest : List Byte} {text : Text} {len : Nat} (h : PrintsLine i text len) :
      AgreesWith (.ok i rest) (.line text len)
  | unrec (b0 : Byte) (examined : Option Byte) (rest : List Byte) :
      AgreesWith (.ok (.unrecognized b0 examined) rest) (.unrec (commentLine b0))
  | trunc : AgreesWith .truncatedStream .trunc

/-- After agreeing reads, results agree if they agree for every value read; a missing byte is a truncation in both. -/
theorem agreesWith_afterRead {α β : Type} {f : α → β} {rest : List Byte} {read : Option (α × List Byte)}
    {wread : Option β} {next : α × List Byte → Decoded} {wnext : β → WindowResult} (hread : SameRead f rest read wread)
    (hnext : ∀ a, read = some (a, rest) → AgreesWith (next (a, rest)) (wnext (f a))) :
    AgreesWith (.afterRead read next) (.orTrunc wread wnext) := by
  cases hread with
  | missing => exact .trunc
  | found a => exact hnext a rfl

/-! ### The formats RMR and RMI -/

variable (c : Nat) (b0 b1 : Byte)

/-- Format RMR agrees with `RmrLine(mn)`, for every instruction that prints such a line. -/
theorem decodeRmr_agreesWith {mk : RegIdx → RegMem → Instr} {mn : Text}
    (hmk : ∀ reg rm, PrintsLine (mk reg rm) (rmrLine mn (directionFlag b0) (wordFlag b0) reg rm) (rmrLength rm)) :
    AgreesWith (decodeRmr mk (m.bytesFrom (c + 1) 5)) (windowRmr mn m c b0) := by
  refine agreesWith_afterRead (sameRead_byte m (c + 1) (by decide)) fun b1 _ =>
    agreesWith_afterRead (sameRead_regMem m (c + 2) _ _ _ (by decide)) fun rm hrm => ?_
  obtain ⟨-, hmod, hrmb, -⟩ := resolveRegMem_eq_some _ _ _ _ _ hrm
  have h := hmk (regField b1) rm
  rw [rmrLength, hmod, hrmb] at h
  exact .line h

/-- The destination text chosen by `mod` is the one chosen by the operand (rule R84). -/
theorem windowDestText_modBits (w : Bool) (rm : RegMem) :
    windowDestText rm.modBits w (regMemOperand w rm) = immDestText w rm := by
  match rm with
  | .reg _ => rfl
  | .direct _ => rfl
  | .indexed _ none => rfl
  | .indexed _ (some (.byte _)) => rfl
  | .indexed _ (some (.word _)) => rfl

/-- The tail of the immediate formats agrees with its pseudocode, for every instruction that prints such a line. -/
theorem decodeRmiTail_agreesWith {mk : RegMem → StreamField → Instr} {mn : Text} {w wd : Bool}
    (hmk : ∀ rm imm, PrintsLine (mk rm imm) (rmiLine mn w rm imm) (rmiLength rm wd)) :
    AgreesWith (decodeRmiTail mk wd b1 (m.bytesFrom (c + 2) 4)) (windowRmiTail mn w wd m c b1) := by
  have hd := dispLen_le (modField b1) (rmField b1)
  refine agreesWith_afterRead (sameRead_regMem m (c + 2) _ _ w (by decide)) fun rm hrm =>
    agreesWith_afterRead (sameRead_imm m _ wd (by omega)) fun imm _ => ?_
  obtain ⟨-, hmod, hrmb, -⟩ := resolveRegMem_eq_some _ _ _ _ _ hrm
  have h := hmk rm imm
  rw [rmiLine, ← windowDestText_modBits, rmiLength, hmod, hrmb] at h
  exact .line h

/-! ### The step -/

/-- The window from the leading byte on. -/
theorem window_eq_cons {s : State} {b0 : Byte} (hb : s.image.fetch s.cursor = some b0) :
    s.window = b0 :: s.image.bytesFrom (s.cursor + 1) 5 := by
  rw [State.window, Config.window, Memory.bytesFrom, hb]

/-- A ready step with a byte at the cursor acts on every result that agrees with what the decoder answers (rules R109
to R111). -/
theorem step_of_agreesWith {s : State} {b0 : Byte} {r : WindowResult} (hs : Ready s)
    (hb : s.image.fetch s.cursor = some b0)
    (h : AgreesWith (decode (b0 :: s.image.bytesFrom (s.cursor + 1) 5)) r) : step s = .next (r.act s.sampled) := by
  rw [step, action_of_ready s hs, State.decoded, window_eq_cons hb]
  generalize decode (b0 :: s.image.bytesFrom (s.cursor + 1) 5) = d at h
  cases h with
  | line hi =>
    obtain ⟨-, rfl, rfl⟩ := hi
    exact exec_eq_commit _ _
  | unrec b0 examined rest => rfl
  | trunc => rfl

end Sys2Proof.Proofs
end

section
/-! PROOFS. The move families (41_mov.md): the classifier's choice, the format's agreement with its pseudocode, and the
step, for each of rules R88 to R92. -/

namespace Sys2Proof.Proofs

open Sys2Proof.Machine Sys2Proof.Safety

variable (m : Memory) (c : Nat) (b0 : Byte)

/-! ### Leading bytes (rules R53, R108) -/

theorem classify_of_movRmReg_pattern : ∀ b0 : Byte, b0 &&& 0xFC#8 = 0x88#8 → classify b0 = .movRmReg := by decide
theorem classify_of_movRmImm_pattern : ∀ b0 : Byte, b0 &&& 0xFE#8 = 0xC6#8 → classify b0 = .movRmImm := by decide
theorem classify_of_movRegImm_pattern : ∀ b0 : Byte, b0 &&& 0xF0#8 = 0xB0#8 → classify b0 = .movRegImm := by decide
theorem classify_of_movAccumulator_pattern :
    ∀ b0 : Byte, b0 &&& 0xFC#8 = 0xA0#8 → classify b0 = .movAccumulator := by decide

section
variable {b0 : Byte} (rest : List Byte)

theorem decode_of_movRmReg_pattern (h : b0 &&& 0xFC#8 = 0x88#8) :
    decode (b0 :: rest) = decodeRmr (.movRmReg (directionFlag b0) (wordFlag b0)) rest := by
  simp only [decode, nextByte_cons, classify_of_movRmReg_pattern b0 h]

theorem decode_of_movRmImm_pattern (h : b0 &&& 0xFE#8 = 0xC6#8) : decode (b0 :: rest) = decodeRmiMov b0 rest := by
  simp only [decode, nextByte_cons, classify_of_movRmImm_pattern b0 h]

theorem decode_of_movRegImm_pattern (h : b0 &&& 0xF0#8 = 0xB0#8) : decode (b0 :: rest) = decodeRi b0 rest := by
  simp only [decode, nextByte_cons, classify_of_movRegImm_pattern b0 h]

theorem decode_of_movAccumulator_pattern (h : b0 &&& 0xFC#8 = 0xA0#8) : decode (b0 :: rest) = decodeMa b0 rest := by
  simp only [decode, nextByte_cons, classify_of_movAccumulator_pattern b0 h]

end

/-! ### Formats -/

/-- Format RMI_MOV: `reg` is looked at before any further byte is read (rule R89). -/
theorem decodeRmiMov_agreesWith :
    AgreesWith (decodeRmiMov b0 (m.bytesFrom (c + 1) 5)) (windowMovRmImm m c b0) := by
  refine agreesWith_afterRead (sameRead_byte m (c + 1) (by decide)) fun b1 _ => ?_
  by_cases h0 : regField b1 = 0#3
  · simp only [movImmMapped, id_eq, h0, beq_self_eq_true, if_true]
    exact decodeRmiTail_agreesWith m c b1 fun rm imm => ⟨rfl, rfl, rfl⟩
  · simp only [movImmMapped, id_eq, h0, beq_iff_eq, if_false]
    exact .unrec b0 (some b1) _

/-- Format RI (rule R90). -/
theorem decodeRi_agreesWith : AgreesWith (decodeRi b0 (m.bytesFrom (c + 1) 5)) (windowMovRegImm m c b0) :=
  agreesWith_afterRead (sameRead_imm m (c + 1) _ (by decide)) fun _ _ => .line ⟨rfl, rfl, rfl⟩

/-- Format MA: `b0[1]` chooses between the store and the load (rules R91, R92). -/
theorem decodeMa_agreesWith : AgreesWith (decodeMa b0 (m.bytesFrom (c + 1) 5)) (windowMovAccumulator m c b0) := by
  refine agreesWith_afterRead (sameRead_word m (c + 1) (by decide)) fun addr _ => .line ?_
  unfold directionFlag
  cases b0.getLsbD 1 with
  | true => exact ⟨rfl, rfl, rfl⟩
  | false => exact ⟨rfl, rfl, rfl⟩

/-! ### Steps -/

/-- Settles O7: the decoder takes format RMR, whose lines with `mov` are those of `movRmReg`. -/
theorem movRmRegStepFollowsItsPseudocode : Obligations.MovRmRegStepFollowsItsPseudocode := by
  unfold Obligations.MovRmRegStepFollowsItsPseudocode
  intro s b0 hs hb hpat
  refine step_of_agreesWith hs hb ?_
  rw [decode_of_movRmReg_pattern _ hpat]
  exact decodeRmr_agreesWith s.image s.cursor b0 fun reg rm => ⟨rfl, rfl, rfl⟩

/-- Settles O8: the decoder takes format RMI_MOV. -/
theorem movRmImmStepFollowsItsPseudocode : Obligations.MovRmImmStepFollowsItsPseudocode := by
  unfold Obligations.MovRmImmStepFollowsItsPseudocode
  intro s b0 hs hb hpat
  refine step_of_agreesWith hs hb ?_
  rw [decode_of_movRmImm_pattern _ hpat]
  exact decodeRmiMov_agreesWith s.image s.cursor b0

/-- Settles O9: the decoder takes format RI. -/
theorem movRegImmStepFollowsItsPseudocode : Obligations.MovRegImmStepFollowsItsPseudocode := by
  unfold Obligations.MovRegImmStepFollowsItsPseudocode
  intro s b0 hs hb hpat
  refine step_of_agreesWith hs hb ?_
  rw [decode_of_movRegImm_pattern _ hpat]
  exact decodeRi_agreesWith s.image s.cursor b0

/-- Settles O10: the decoder takes format MA. -/
theorem accumulatorMoveStepsFollowTheirPseudocode : Obligations.AccumulatorMoveStepsFollowTheirPseudocode := by
  unfold Obligations.AccumulatorMoveStepsFollowTheirPseudocode
  intro s b0 hs hb hpat
  refine step_of_agreesWith hs hb ?_
  rw [decode_of_movAccumulator_pattern _ hpat]
  exact decodeMa_agreesWith s.image s.cursor b0

end Sys2Proof.Proofs
end

section
/-! PROOFS. The arithmetic families (42_arith.md): the classifier's choice, the immediate format's agreement with
`RmiLine()`, the step for rules R93 to R98, and sign extension (rule R99). -/

namespace Sys2Proof.Proofs

open Sys2Proof.Machine Sys2Proof.Safety

variable (m : Memory) (c : Nat) (b0 : Byte)

/-! ### Leading bytes (rules R53, R108) -/

theorem classify_of_addRmReg_pattern : ∀ b0 : Byte, b0 &&& 0xFC#8 = 0x00#8 → classify b0 = .addRmReg := by decide
theorem classify_of_subRmReg_pattern : ∀ b0 : Byte, b0 &&& 0xFC#8 = 0x28#8 → classify b0 = .subRmReg := by decide
theorem classify_of_cmpRmReg_pattern : ∀ b0 : Byte, b0 &&& 0xFC#8 = 0x38#8 → classify b0 = .cmpRmReg := by decide
theorem classify_of_arithImm_pattern : ∀ b0 : Byte, b0 &&& 0xFC#8 = 0x80#8 → classify b0 = .arithImm := by decide

section
variable {b0 : Byte} (rest : List Byte)

theorem decode_of_addRmReg_pattern (h : b0 &&& 0xFC#8 = 0x00#8) :
    decode (b0 :: rest) = decodeRmr (.addRmReg (directionFlag b0) (wordFlag b0)) rest := by
  simp only [decode, nextByte_cons, classify_of_addRmReg_pattern b0 h]

theorem decode_of_subRmReg_pattern (h : b0 &&& 0xFC#8 = 0x28#8) :
    decode (b0 :: rest) = decodeRmr (.subRmReg (directionFlag b0) (wordFlag b0)) rest := by
  simp only [decode, nextByte_cons, classify_of_subRmReg_pattern b0 h]

theorem decode_of_cmpRmReg_pattern (h : b0 &&& 0xFC#8 = 0x38#8) :
    decode (b0 :: rest) = decodeRmr (.cmpRmReg (directionFlag b0) (wordFlag b0)) rest := by
  simp only [decode, nextByte_cons, classify_of_cmpRmReg_pattern b0 h]

theorem decode_of_arithImm_pattern (h : b0 &&& 0xFC#8 = 0x80#8) : decode (b0 :: rest) = decodeRmiArith b0 rest := by
  simp only [decode, nextByte_cons, classify_of_arithImm_pattern b0 h]

end

/-! ### Format RMI_ARITH -/

/-- The mnemonic of an arithmetic-immediate instruction (rules R96 to R98). -/
def arithMnemonic : ArithOp → Text
  | .add => mnAdd
  | .sub => mnSub
  | .cmp => mnCmp

theorem arithInstr_printsLine (op : ArithOp) (sx w : Bool) (rm : RegMem) (imm : StreamField) :
    PrintsLine (arithInstr op sx w rm imm) (rmiLine (arithMnemonic op) w rm imm) (rmiLength rm (wordData sx w)) := by
  cases op <;> exact ⟨rfl, rfl, rfl⟩

/-- Format RMI_ARITH: `reg` chooses the mnemonic, or none, before any further byte is read (rules R56, R96 to R98). -/
theorem decodeRmiArith_agreesWith :
    AgreesWith (decodeRmiArith b0 (m.bytesFrom (c + 1) 5)) (windowArithImm m c b0) := by
  refine agreesWith_afterRead (sameRead_byte m (c + 1) (by decide)) fun b1 _ => ?_
  have htail (op : ArithOp) := decodeRmiTail_agreesWith m c b1
    (arithInstr_printsLine op (signExtendFlag b0) (wordFlag b0))
  by_cases hadd : regField b1 = 0#3
  · simp only [id_eq, arithOp, hadd, reduceIte, BitVec.reduceEq]
    exact htail .add
  by_cases hsub : regField b1 = 5#3
  · simp only [id_eq, arithOp, hsub, reduceIte, BitVec.reduceEq]
    exact htail .sub
  by_cases hcmp : regField b1 = 7#3
  · simp only [id_eq, arithOp, hcmp, reduceIte, BitVec.reduceEq]
    exact htail .cmp
  · simp only [id_eq, arithOp, hadd, hsub, hcmp, reduceIte]
    exact .unrec b0 (some b1) _

/-! ### Steps -/

/-- A ready step whose byte decodes by format RMR is `RmrLine(mn)`, when the instructions decoded print such a line. -/
theorem step_eq_windowRmr {s : State} {b0 : Byte} {mk : RegIdx → RegMem → Instr} {mn : Text} (hs : Ready s)
    (hb : s.image.fetch s.cursor = some b0) (hdecode : ∀ rest, decode (b0 :: rest) = decodeRmr mk rest)
    (hmk : ∀ reg rm, PrintsLine (mk reg rm) (rmrLine mn (directionFlag b0) (wordFlag b0) reg rm) (rmrLength rm)) :
    step s = .next ((windowRmr mn s.image s.cursor b0).act s.sampled) := by
  refine step_of_agreesWith hs hb ?_
  rw [hdecode]
  exact decodeRmr_agreesWith s.image s.cursor b0 hmk

/-- Settles O11: the decoder takes format RMR, whose lines with each mnemonic are those of its instruction. -/
theorem arithRmRegStepsFollowTheirPseudocode : Obligations.ArithRmRegStepsFollowTheirPseudocode := by
  unfold Obligations.ArithRmRegStepsFollowTheirPseudocode
  intro s b0 hs hb
  refine ⟨fun hadd => ?add, fun hsub => ?sub, fun hcmp => ?cmp⟩
  case add => exact step_eq_windowRmr hs hb (decode_of_addRmReg_pattern · hadd) fun _ _ => ⟨rfl, rfl, rfl⟩
  case sub => exact step_eq_windowRmr hs hb (decode_of_subRmReg_pattern · hsub) fun _ _ => ⟨rfl, rfl, rfl⟩
  case cmp => exact step_eq_windowRmr hs hb (decode_of_cmpRmReg_pattern · hcmp) fun _ _ => ⟨rfl, rfl, rfl⟩

/-- Settles O12: the decoder takes format RMI_ARITH. -/
theorem arithImmStepsFollowTheirPseudocode : Obligations.ArithImmStepsFollowTheirPseudocode := by
  unfold Obligations.ArithImmStepsFollowTheirPseudocode
  intro s b0 hs hb hpat
  refine step_of_agreesWith hs hb ?_
  rw [decode_of_arithImm_pattern _ hpat]
  exact decodeRmiArith_agreesWith s.image s.cursor b0

/-! ### Sign extension (rule R99) -/

/-- The 16-bit pattern has the byte below and copies of its bit 7 above. -/
theorem signExtend_eq_wordOfBytes (b : Byte) :
    b.signExtend 16 = wordOfBytes b (if b.getLsbD 7 then 0xFF#8 else 0x00#8) :=
  BitVec.signExtend_eq_append_of_le (by decide)

/-- Settles O53: the number is two's complement, which widening keeps; the pattern is the two bytes named; and each
of the two uses reads the byte as that number. -/
theorem signExtension : Obligations.SignExtension := by
  unfold Obligations.SignExtension
  intro b
  refine ⟨?number, ?widened, ?low, ?high, fun w r_m => rfl, fun rest => rfl⟩
  case number => simp only [sext8, Nat.lt_succ_iff]
  case widened => rw [sext8_toNat, BitVec.toInt_signExtend_of_le (by decide)]
  case low => rw [signExtend_eq_wordOfBytes, lowByte_wordOfBytes]
  case high => rw [signExtend_eq_wordOfBytes, highByte_wordOfBytes]

end Sys2Proof.Proofs
end

section
/-! PROOFS. The decode loop (45_decode_loop.md): what a ready step does and which label it outputs, by what
the decoder answers; the header, the clean end and the unrecognized bytes (rules R105, R106, R110). -/

namespace Sys2Proof.Proofs

open Sys2Proof.Machine Sys2Proof.Safety Sys2Proof.Stated

/-! ### A ready step, by what the decoder answers -/

section
variable {s : State} (hs : Ready s)
include hs

/-- No leading byte (rule R106). -/
theorem step_event_of_decode_endOfInput (h : decode s.window = .endOfInput) :
    step s = .next (s.sampled.raise .endOfInput) ∧ s.event = some .endOfRun := by
  rw [step, event_of_ready s hs, action_of_ready s hs, State.decoded, h]
  exact ⟨rfl, rfl⟩

/-- A byte after the leading byte is missing (rule R111). -/
theorem step_event_of_decode_truncated (h : decode s.window = .truncatedStream) :
    step s = .next (s.sampled.raise .truncatedStream) ∧ s.event = some .fault := by
  rw [step, event_of_ready s hs, action_of_ready s hs, State.decoded, h]
  exact ⟨rfl, rfl⟩

/-- An instruction, the fallback row included (rules R109, R110). -/
theorem step_event_of_decode_ok {i : Instr} {rest : List Byte} (h : decode s.window = .ok i rest) :
    step s = .next (s.sampled.commit (instrText i) (instrLength i)) ∧ s.event = some (instrLabel i) := by
  rw [step, event_of_ready s hs, action_of_ready s hs, State.decoded, h]
  exact ⟨exec_eq_commit i s.sampled, rfl⟩

end

/-- An instruction's label is one of the two labels of a committed line. -/
theorem instrLabel_cases (i : Instr) : instrLabel i = .line ∨ instrLabel i = .unrecognized := by
  cases i with
  | unrecognized b0 examined => exact .inr rfl
  | _ => exact .inl rfl

/-! ### The header step (rule R105) -/

/-- In `Awaiting` no label is that of the header. -/
theorem decoded_label_ne_header (s : State) : s.decoded.label ≠ some .header := by
  unfold State.decoded
  cases decode s.window with
  | ok i rest => obtain h | h := instrLabel_cases i <;> simp [Action.label, h]
  | endOfInput => simp [Action.label]
  | truncatedStream => simp [Action.label]

/-- The label of the header is output in `Start` only. -/
theorem start_of_event_header {s : State} (h : s.event = some .header) : s.phase = .start := by
  unfold State.event State.action at h
  cases hr : s.resetNow with
  | some bytes => simp [hr, Action.label] at h
  | none =>
    cases hp : s.phase with
    | start => rfl
    | exhausted => simp [hr, hp, Action.label] at h
    | faulted => simp [hr, hp, Action.label] at h
    | awaiting =>
      cases hio : s.ioErrorNow with
      | true => simp [hr, hp, hio, Action.label] at h
      | false => exact absurd (by simpa [hr, hp, hio] using h) (decoded_label_ne_header s)

/-- Only the host's reset leads to `Start`. -/
theorem step_phase_ne_start {s t : State} (hr : s.resetNow = none) (h : step s = .next t) : t.phase ≠ .start := by
  obtain ⟨bytes, hsome, -⟩ | ⟨-, hp | hp, rfl⟩ | ⟨-, -, -, rfl⟩ | ⟨-, -, rfl⟩ | ⟨-, -, rfl⟩ | ⟨-, -, rfl⟩ |
    ⟨⟨hp, -⟩, i, -, -, rfl⟩ := step_cases s t h
  · simp [hr] at hsome
  · simp [hp]
  · simp [hp]
  · simp
  · simp
  · simp
  · simp
  · simp [hp]

/-- Settles O16: the header is the only action in `Start` with an idle host, no step without reset leads back, and
no other phase outputs its label. -/
theorem firstStepWritesTheHeader : Obligations.FirstStepWritesTheHeader := by
  unfold Obligations.FirstStepWritesTheHeader
  refine ⟨fun s hidle hp => ?_, fun s t => step_phase_ne_start, fun s => start_of_event_header⟩
  obtain ⟨hr, hio⟩ := hidle
  have haction : s.action = .header := by simp [State.action, hr, hp, hio]
  rw [step, State.event, haction]
  exact ⟨rfl, rfl⟩

/-! ### The end of the image (rule R106) -/

/-- On a canonical image the decoder finds no leading byte exactly from the end of the image on. -/
theorem decode_window_eq_endOfInput_iff {s : State} (hwf : s.image.wf = true) :
    decode s.window = .endOfInput ↔ s.image.size ≤ s.cursor := by
  rw [decode_eq_endOfInput_iff, window_eq_nil_iff, Memory.fetch_eq_none_iff _ hwf]

/-- The label of the clean end is output only where the decoder finds no leading byte. -/
theorem decode_eq_endOfInput_of_event {s : State} (hs : Ready s) (h : s.event = some .endOfRun) :
    decode s.window = .endOfInput := by
  cases hd : decode s.window with
  | endOfInput => rfl
  | truncatedStream => simp [(step_event_of_decode_truncated hs hd).2] at h
  | ok i rest => obtain hi | hi := instrLabel_cases i <;> simp [(step_event_of_decode_ok hs hd).2, hi] at h

/-- Settles O17: with the cursor at most `N`, the decoder finds no leading byte exactly when the cursor is `N`. -/
theorem endOfInputStep : Obligations.EndOfInputStep := by
  unfold Obligations.EndOfInputStep
  intro s hs hwf hle
  have hend := decode_window_eq_endOfInput_iff hwf
  exact ⟨fun heq => step_event_of_decode_endOfInput hs (hend.2 heq.ge), fun h =>
    le_antisymm hle (hend.1 (decode_eq_endOfInput_of_event hs h))⟩

/-! ### Unrecognized bytes (rules R110, R121) -/

theorem classify_of_unmatchedLeadingByte : ∀ b0 : Byte, UnmatchedLeadingByte b0 → classify b0 = .unrecognized := by
  decide

theorem unmappedReg_of_unmappedSecondByte {b0 b1 : Byte} (h : UnmappedSecondByte b0 b1) :
    unmappedReg b0 (regField b1) = true := by
  unfold UnmappedSecondByte at h
  generalize regField b1 = reg at h ⊢
  revert b0 reg
  decide

theorem decode_of_unmatched {b0 : Byte} (h : classify b0 = .unrecognized) (rest : List Byte) :
    decode (b0 :: rest) = .ok (.unrecognized b0 none) rest := by
  simp only [decode, nextByte_cons, h]

/-- The examined byte stays in the stream (rule R57). -/
theorem decode_of_unmappedReg {b0 b1 : Byte} (h : unmappedReg b0 (regField b1) = true) (rest : List Byte) :
    decode (b0 :: b1 :: rest) = .ok (.unrecognized b0 (some b1)) (b1 :: rest) := by
  unfold unmappedReg at h
  cases hc : classify b0 with
  | movRmImm =>
    have hreg : movImmMapped (regField b1) = false := by simpa [hc] using h
    simp [decode, hc, decodeRmiMov, hreg]
  | arithImm =>
    have hreg : arithOp (regField b1) = none := by simpa [hc] using h
    simp [decode, hc, decodeRmiArith, hreg]
  | _ => simp [hc] at h

/-- The comment line is the one written through `hexOf` (rule R66). -/
theorem commentLine_eq_hexOf : ∀ b0 : Byte,
    commentLine b0 = [';', ' '] ++ [hexOf (b0.toNat / 16), hexOf (b0.toNat % 16)] ++ ['\n'] := by
  decide

/-- Settles O18: in both ways the decoder answers the fallback row, whose text is the comment line. -/
theorem unrecognizedByteStep : Obligations.UnrecognizedByteStep := by
  unfold Obligations.UnrecognizedByteStep
  intro s b0 hs hb hunrec
  obtain ⟨examined, rest, hd⟩ : ∃ examined rest, decode s.window = .ok (.unrecognized b0 examined) rest := by
    rw [window_eq_cons hb]
    obtain hunmatched | ⟨b1, hb1, hunmapped⟩ := hunrec
    · exact ⟨none, _, decode_of_unmatched (classify_of_unmatchedLeadingByte b0 hunmatched) _⟩
    · rw [Memory.bytesFrom, hb1]
      exact ⟨some b1, _, decode_of_unmappedReg (unmappedReg_of_unmappedSecondByte hunmapped) _⟩
  rw [← commentLine_eq_hexOf]
  exact step_event_of_decode_ok hs hd

end Sys2Proof.Proofs
end

section
/-! PROOFS. The bytes the decoder needs (rules R52, R122): read by read, then for each format, then for the window at
the cursor, and truncation (rule R111). -/

namespace Sys2Proof.Proofs

open Sys2Proof.Machine Sys2Proof.Safety

/-! ### Reads -/

/-- A read of `k` bytes: they are missing, or exactly they are consumed (rule R31). -/
inductive ReadsExactly {α : Type} (k : Nat) (bytes : List Byte) : Option (α × List Byte) → Prop where
  | missing (h : bytes.length < k) : ReadsExactly k bytes none
  | found (a : α) (rest : List Byte) (h : bytes.length = k + rest.length) : ReadsExactly k bytes (some (a, rest))

theorem readsExactly_word (bytes : List Byte) : ReadsExactly 2 bytes (nextWord bytes) := by
  match bytes with
  | [] => exact .missing (by decide)
  | [_] => exact .missing (Nat.lt_succ_self 1)
  | lo :: hi :: rest => exact .found _ rest (Nat.add_comm rest.length 2)

theorem readsExactly_field (wd : Bool) (bytes : List Byte) : ReadsExactly (immLen wd) bytes (nextField wd bytes) := by
  cases h : nextField wd bytes with
  | none => exact .missing ((nextField_eq_none_iff wd bytes).1 h)
  | some r =>
    obtain ⟨hwidth, hbytes⟩ := (nextField_eq_some_iff wd bytes r.1 r.2).1 h
    exact .found r.1 r.2 (by rw [hbytes, List.length_append, length_bytes_field, hwidth])

theorem readsExactly_regMem (md : BitVec 2) (r_m : RegIdx) (bytes : List Byte) :
    ReadsExactly (dispLen md r_m) bytes (resolveRegMem md r_m bytes) := by
  cases h : resolveRegMem md r_m bytes with
  | none => exact .missing ((resolveRegMem_eq_none_iff md r_m bytes).1 h)
  | some r =>
    obtain ⟨hwf, hmod, hrm, hbytes⟩ := resolveRegMem_eq_some md r_m bytes r.1 r.2 h
    exact .found r.1 r.2 (by rw [hbytes, List.length_append, length_dispBytes _ hwf, hmod, hrm])

/-! ### The decoder's answer -/

/-- With `avail` bytes left, an instruction that needs `needed` of them is answered, and as long as that, exactly when
they are there; otherwise it is truncated. -/
inductive AnswersByLength (avail needed : Nat) : Decoded → Prop where
  | complete {i : Instr} {rest : List Byte} (hlen : instrLength i = needed) (hfit : needed ≤ avail) :
      AnswersByLength avail needed (.ok i rest)
  | truncated (h : avail < needed) : AnswersByLength avail needed .truncatedStream

theorem AnswersByLength.congr_avail {avail avail' needed : Nat} {d : Decoded} (h : AnswersByLength avail needed d)
    (hiff : needed ≤ avail ↔ needed ≤ avail') : AnswersByLength avail' needed d := by
  cases h with
  | complete hlen hfit => exact .complete hlen (hiff.1 hfit)
  | truncated h => exact .truncated (by omega)

/-- After `consumed` bytes, a read of `k` more that are all needed: the answer is by length if what follows the read
is. -/
theorem answersByLength_afterRead {α : Type} {consumed k needed : Nat} {bytes : List Byte}
    {read : Option (α × List Byte)} {next : α × List Byte → Decoded} (hread : ReadsExactly k bytes read)
    (hneeded : consumed + k ≤ needed)
    (hnext : ∀ a rest, read = some (a, rest) → AnswersByLength (consumed + k + rest.length) needed (next (a, rest))) :
    AnswersByLength (consumed + bytes.length) needed (.afterRead read next) := by
  cases hread with
  | missing h => exact .truncated (by omega)
  | found a rest h =>
    rw [h, ← Nat.add_assoc]
    exact hnext a rest rfl

/-! ### Formats -/

theorem length_after_two_bytes (b1 : Byte) (r1 : List Byte) : 1 + (b1 :: r1).length = 2 + r1.length := by
  rw [List.length_cons]
  omega

section
variable (b0 b1 : Byte) (r1 rest : List Byte)

/-- Format RMR. -/
theorem decodeRmr_answersByLength {mk : RegIdx → RegMem → Instr}
    (hmk : ∀ reg rm, instrLength (mk reg rm) = rmrLength rm) :
    AnswersByLength (1 + (b1 :: r1).length) (2 + dispLen (modField b1) (rmField b1)) (decodeRmr mk (b1 :: r1)) := by
  simp only [length_after_two_bytes, decodeRmr, nextByte_cons, afterRead_some]
  refine answersByLength_afterRead (readsExactly_regMem _ _ r1) (Nat.le_refl _) fun rm r2 hrm => ?_
  obtain ⟨-, hmod, hrmb, -⟩ := resolveRegMem_eq_some _ _ _ _ _ hrm
  exact .complete (by rw [hmk, rmrLength, hmod, hrmb]) (Nat.le_add_right _ _)

/-- The tail of the immediate formats, after `b0` and `b1`. -/
theorem decodeRmiTail_answersByLength {mk : RegMem → StreamField → Instr} {wd : Bool}
    (hmk : ∀ rm imm, instrLength (mk rm imm) = rmiLength rm wd) :
    AnswersByLength (2 + r1.length) (2 + dispLen (modField b1) (rmField b1) + immLen wd)
      (decodeRmiTail mk wd b1 r1) := by
  refine answersByLength_afterRead (readsExactly_regMem _ _ r1) (Nat.le_add_right _ _) fun rm r2 hrm =>
    answersByLength_afterRead (readsExactly_field wd r2) (Nat.le_refl _) fun imm r3 _ => ?_
  obtain ⟨-, hmod, hrmb, -⟩ := resolveRegMem_eq_some _ _ _ _ _ hrm
  exact .complete (by rw [hmk, rmiLength, hmod, hrmb]) (Nat.le_add_right _ _)

/-- Format RMI_MOV: with an unmapped `reg` the instruction is `b0` alone (rule R57). -/
theorem decodeRmiMov_answersByLength :
    AnswersByLength (1 + (b1 :: r1).length)
      (if movImmMapped (regField b1) then 2 + dispLen (modField b1) (rmField b1) + immLen (wordFlag b0) else 1)
      (decodeRmiMov b0 (b1 :: r1)) := by
  simp only [length_after_two_bytes, decodeRmiMov, nextByte_cons, afterRead_some]
  split
  · exact decodeRmiTail_answersByLength b1 r1 fun _ _ => rfl
  · exact .complete rfl (by omega)

/-- Format RMI_ARITH: with an unmapped `reg` the instruction is `b0` alone (rule R57). -/
theorem decodeRmiArith_answersByLength :
    AnswersByLength (1 + (b1 :: r1).length)
      (if (arithOp (regField b1)).isSome then
        2 + dispLen (modField b1) (rmField b1) + immLen (wordData (signExtendFlag b0) (wordFlag b0))
      else 1)
      (decodeRmiArith b0 (b1 :: r1)) := by
  simp only [length_after_two_bytes, decodeRmiArith, nextByte_cons, afterRead_some]
  cases arithOp (regField b1) with
  | some op => exact decodeRmiTail_answersByLength b1 r1 fun rm imm => (arithInstr_printsLine op _ _ rm imm).2.2
  | none => exact .complete rfl (Nat.le_add_right_of_le (Nat.le_succ 1))

/-- Format RI. -/
theorem decodeRi_answersByLength :
    AnswersByLength (1 + rest.length) (1 + immLen (regImmWordFlag b0)) (decodeRi b0 rest) :=
  answersByLength_afterRead (readsExactly_field _ rest) (Nat.le_refl _) fun _ _ _ =>
    .complete rfl (Nat.le_add_right _ _)

/-- Format MA. -/
theorem decodeMa_answersByLength :
    AnswersByLength (1 + rest.length) 3 (decodeMa b0 rest) :=
  answersByLength_afterRead (readsExactly_word rest) (Nat.le_refl _) fun addr _ _ =>
    .complete (by cases directionFlag b0 <;> rfl) (Nat.le_add_right _ _)

end

/-- The decoder needs exactly the bytes of the length rule (rules R52, R122). -/
theorem decode_answersByLength (b0 : Byte) (rest : List Byte) :
    AnswersByLength (1 + rest.length) (neededLength b0 rest.head?) (decode (b0 :: rest)) := by
  simp only [neededLength, decode, nextByte_cons]
  cases rest with
  | nil =>
    cases classify b0 with
    | movAccumulator => exact decodeMa_answersByLength b0 []
    | movRegImm => exact decodeRi_answersByLength b0 []
    | unrecognized => exact .complete rfl (Nat.le_refl 1)
    | movRmImm | movRmReg | addRmReg | subRmReg | cmpRmReg | arithImm => exact .truncated (Nat.lt_succ_self 1)
  | cons b1 r1 =>
    cases classify b0 with
    | movRmImm => exact decodeRmiMov_answersByLength b0 b1 r1
    | movRmReg => exact decodeRmr_answersByLength b1 r1 fun _ _ => rfl
    | addRmReg => exact decodeRmr_answersByLength b1 r1 fun _ _ => rfl
    | subRmReg => exact decodeRmr_answersByLength b1 r1 fun _ _ => rfl
    | cmpRmReg => exact decodeRmr_answersByLength b1 r1 fun _ _ => rfl
    | arithImm => exact decodeRmiArith_answersByLength b0 b1 r1
    | movAccumulator => exact decodeMa_answersByLength b0 (b1 :: r1)
    | movRegImm => exact decodeRi_answersByLength b0 (b1 :: r1)
    | unrecognized => exact .complete rfl (Nat.le_add_right _ _)

/-! ### The window -/

/-- No instruction needs more than the window (rule R44). -/
theorem neededLength_le_window (b0 : Byte) (b1 : Option Byte) : neededLength b0 b1 ≤ Config.window := by
  have himm (wd : Bool) : immLen wd ≤ 2 := (immLen_bounds wd).2
  cases b1 with
  | none =>
    unfold neededLength
    cases classify b0 with
    | movRegImm => have := himm (b0.getLsbD 3); simp only [Config.window]; omega
    | _ => simp [Config.window]
  | some b1 =>
    have hdisp := dispLen_le (modField b1) (rmField b1)
    unfold neededLength Config.window
    cases classify b0 with
    | unrecognized | movAccumulator => simp
    | movRegImm => have := himm (b0.getLsbD 3); simp only; omega
    | movRmImm => have := himm (b0.getLsbD 0); simp only; split <;> omega
    | arithImm => have := himm (wordData (b0.getLsbD 1) (b0.getLsbD 0)); simp only; split <;> omega
    | _ => simp only; omega

@[simp] theorem head?_bytesFrom (m : Memory) (a n : Nat) : (m.bytesFrom a (n + 1)).head? = m.fetch a := by
  rw [Memory.bytesFrom]
  cases m.fetch a <;> rfl

/-- Six bytes are enough to tell whether the instruction runs past the end of a canonical image. -/
theorem decode_window_answersByLength {s : State} {b0 : Byte} (hwf : s.image.wf = true)
    (hb : s.image.fetch s.cursor = some b0) :
    AnswersByLength (s.image.size - s.cursor) (neededLength b0 (s.image.fetch (s.cursor + 1))) (decode s.window) := by
  have hlt : s.cursor < s.image.size := (Memory.fetch_isSome_iff _ hwf _).1 (by simp [hb])
  have hlen : (s.image.bytesFrom (s.cursor + 1) 5).length = min 5 (s.image.size - (s.cursor + 1)) := by
    simp [Memory.bytesFrom_of_wf _ hwf]
  have hneeded : neededLength b0 (s.image.fetch (s.cursor + 1)) ≤ 6 := neededLength_le_window b0 _
  have h := decode_answersByLength b0 (s.image.bytesFrom (s.cursor + 1) 5)
  rw [head?_bytesFrom] at h
  rw [window_eq_cons hb]
  exact h.congr_avail (by omega)

/-! ### The step -/

/-- Settles O19: the decoder answers a truncation exactly when bytes are missing, and no other answer faults. -/
theorem truncationExactlyWhenBytesAreMissing : Obligations.TruncationExactlyWhenBytesAreMissing := by
  unfold Obligations.TruncationExactlyWhenBytesAreMissing
  intro s b0 hs hwf hb
  have h := decode_window_answersByLength hwf hb
  generalize hd : decode s.window = d at h
  cases h with
  | truncated hmissing =>
    obtain ⟨hstep, hevent⟩ := step_event_of_decode_truncated hs hd
    have hpast : s.image.size < s.cursor + neededLength b0 (s.image.fetch (s.cursor + 1)) := by omega
    exact ⟨iff_of_true hstep hpast, iff_of_true hevent hpast⟩
  | @complete i _ hlen hfit =>
    obtain ⟨hstep, hevent⟩ := step_event_of_decode_ok hs hd
    have hlt : s.cursor < s.image.size := (Memory.fetch_isSome_iff _ hwf _).1 (by simp [hb])
    have hpast : ¬ s.image.size < s.cursor + neededLength b0 (s.image.fetch (s.cursor + 1)) := by omega
    refine ⟨iff_of_false (fun hfault => ?_) hpast, iff_of_false (fun hfault => ?_) hpast⟩
    · have hstate := Host.Outcome.next.inj (hstep.symm.trans hfault)
      simpa [hs.1] using congrArg State.phase hstate
    · obtain hi | hi := instrLabel_cases i <;> simp [hevent, hi] at hfault

end Sys2Proof.Proofs
end

section
/-! PROOFS. A step on a present byte commits the result of `Decode(IN, cursor)` at absolute offsets (rules R107 to
R111): its label, the bounds of a line, and what a comment line says. -/

namespace Sys2Proof.Proofs

open Sys2Proof.Machine Sys2Proof.Safety

/-- The decoder agrees with `Decode(IN, c)`: both take the first row that `b0` matches (rules R53, R108). -/
theorem decode_agreesWith (m : Memory) (c : Nat) (b0 : Byte) :
    AgreesWith (decode (b0 :: m.bytesFrom (c + 1) 5)) (windowDecode m c b0) := by
  unfold windowDecode
  split_ifs with hmovRmImm hmovRmReg hadd hsub hcmp harith hacc hmovRegImm
  · rw [decode_of_movRmImm_pattern _ hmovRmImm]; exact decodeRmiMov_agreesWith m c b0
  · rw [decode_of_movRmReg_pattern _ hmovRmReg]; exact decodeRmr_agreesWith m c b0 fun _ _ => ⟨rfl, rfl, rfl⟩
  · rw [decode_of_addRmReg_pattern _ hadd]; exact decodeRmr_agreesWith m c b0 fun _ _ => ⟨rfl, rfl, rfl⟩
  · rw [decode_of_subRmReg_pattern _ hsub]; exact decodeRmr_agreesWith m c b0 fun _ _ => ⟨rfl, rfl, rfl⟩
  · rw [decode_of_cmpRmReg_pattern _ hcmp]; exact decodeRmr_agreesWith m c b0 fun _ _ => ⟨rfl, rfl, rfl⟩
  · rw [decode_of_arithImm_pattern _ harith]; exact decodeRmiArith_agreesWith m c b0
  · rw [decode_of_movAccumulator_pattern _ hacc]; exact decodeMa_agreesWith m c b0
  · rw [decode_of_movRegImm_pattern _ hmovRegImm]; exact decodeRi_agreesWith m c b0
  · have hunmatched : classify b0 = .unrecognized := by
      simp [classify, patterns, Pattern.accepts, *]
    rw [decode_of_unmatched hunmatched]
    exact .unrec b0 none _

/-! ### Labels and lines -/

/-- The label that belongs to a result of `Decode` (rules R109 to R111). -/
def labelOf : WindowResult → Label
  | .line _ _ => .line
  | .unrec _ => .unrecognized
  | .trunc => .fault

/-- A ready step outputs the label of every result that agrees with what the decoder answers. -/
theorem event_of_agreesWith {s : State} {r : WindowResult} (hs : Ready s) (h : AgreesWith (decode s.window) r) :
    s.event = some (labelOf r) := by
  generalize hd : decode s.window = d at h
  cases h with
  | line hi => rw [(step_event_of_decode_ok hs hd).2, hi.1]; rfl
  | unrec b0 examined rest => exact (step_event_of_decode_ok hs hd).2
  | trunc => exact (step_event_of_decode_truncated hs hd).2

/-- An instruction that prints a line consumes at least two bytes (rule R52). -/
theorem two_le_instrLength_of_line {i : Instr} (h : instrLabel i = .line) : 2 ≤ instrLength i := by
  have hrmr (rm : RegMem) : 2 ≤ rmrLength rm := (rmrLength_bounds rm).1
  have hrmi (rm : RegMem) (wd : Bool) : 2 ≤ rmiLength rm wd := Nat.le_of_succ_le (rmiLength_bounds rm wd).1
  cases i with
  | movRmReg d w reg rm | addRmReg d w reg rm | subRmReg d w reg rm | cmpRmReg d w reg rm => exact hrmr rm
  | movRmImm w rm imm => exact hrmi rm w
  | addRmImm sx w rm imm | subRmImm sx w rm imm | cmpRmImm sx w rm imm => exact hrmi rm (wordData sx w)
  | movRegImm w reg imm => exact Nat.add_le_add_left (immLen_bounds w).1 1
  | movAccMem w addr | movMemAcc w addr => exact Nat.le_succ 2
  | unrecognized b0 examined => cases h

/-- A line of `Decode` consumes 2 to 6 bytes, all of them in the image. -/
theorem windowDecode_line_bounds {s : State} {b0 : Byte} {text : Text} {len : Nat} (hwf : s.image.wf = true)
    (hb : s.image.fetch s.cursor = some b0) (h : windowDecode s.image s.cursor b0 = .line text len) :
    2 ≤ len ∧ len ≤ 6 ∧ s.cursor + len ≤ s.image.size := by
  have hlt : s.cursor < s.image.size := (Memory.fetch_isSome_iff _ hwf _).1 (by simp [hb])
  have hagrees := decode_agreesWith s.image s.cursor b0
  have hlength := decode_window_answersByLength hwf hb
  rw [window_eq_cons hb] at hlength
  rw [h] at hagrees
  generalize decode (b0 :: s.image.bytesFrom (s.cursor + 1) 5) = d at hagrees hlength
  cases hagrees with
  | @line i _ _ _ hprints =>
    obtain ⟨hlabel, -, rfl⟩ := hprints
    cases hlength with
    | complete hlen hfit => exact ⟨two_le_instrLength_of_line hlabel, (instrLength_bounds i).2, by omega⟩

/-! ### Comment lines -/

/-- Whatever a result comments on is the byte `b0`. -/
def CommentsOnly (b0 : Byte) (r : WindowResult) : Prop := ∀ text, r = .unrec text → text = commentLine b0

theorem commentsOnly_unrec (b0 : Byte) : CommentsOnly b0 (.unrec (commentLine b0)) := by
  rintro text ⟨⟩
  rfl

theorem commentsOnly_line (b0 : Byte) (text : Text) (len : Nat) : CommentsOnly b0 (.line text len) := by
  rintro text ⟨⟩

theorem commentsOnly_orTrunc {α : Type} {b0 : Byte} (read : Option α) {next : α → WindowResult}
    (h : ∀ a, CommentsOnly b0 (next a)) : CommentsOnly b0 (.orTrunc read next) := by
  cases read with
  | some a => exact h a
  | none => rintro text ⟨⟩

section
variable (m : Memory) (c : Nat) (b0 : Byte)

theorem commentsOnly_windowRmr (mn : Text) : CommentsOnly b0 (windowRmr mn m c b0) :=
  commentsOnly_orTrunc _ fun _ => commentsOnly_orTrunc _ fun _ => commentsOnly_line _ _ _

theorem commentsOnly_windowRmiTail (mn : Text) (w wd : Bool) (b1 : Byte) :
    CommentsOnly b0 (windowRmiTail mn w wd m c b1) :=
  commentsOnly_orTrunc _ fun _ => commentsOnly_orTrunc _ fun _ => commentsOnly_line _ _ _

theorem commentsOnly_windowMovRmImm : CommentsOnly b0 (windowMovRmImm m c b0) := by
  refine commentsOnly_orTrunc _ fun b1 => ?_
  split_ifs
  · exact commentsOnly_windowRmiTail m c b0 _ _ _ b1
  · exact commentsOnly_unrec b0

theorem commentsOnly_windowArithImm : CommentsOnly b0 (windowArithImm m c b0) := by
  refine commentsOnly_orTrunc _ fun b1 => ?_
  split_ifs
  · exact commentsOnly_windowRmiTail m c b0 _ _ _ b1
  · exact commentsOnly_windowRmiTail m c b0 _ _ _ b1
  · exact commentsOnly_windowRmiTail m c b0 _ _ _ b1
  · exact commentsOnly_unrec b0

theorem commentsOnly_windowDecode : CommentsOnly b0 (windowDecode m c b0) := by
  unfold windowDecode
  split_ifs
  · exact commentsOnly_windowMovRmImm m c b0
  · exact commentsOnly_windowRmr m c b0 _
  · exact commentsOnly_windowRmr m c b0 _
  · exact commentsOnly_windowRmr m c b0 _
  · exact commentsOnly_windowRmr m c b0 _
  · exact commentsOnly_windowArithImm m c b0
  · exact commentsOnly_orTrunc _ fun _ => commentsOnly_line _ _ _
  · exact commentsOnly_orTrunc _ fun _ => commentsOnly_line _ _ _
  · exact commentsOnly_unrec b0

end

/-! ### The step -/

/-- Settles O13: the decoder agrees with `Decode(IN, cursor)`, so the step acts on its result and outputs its label; a
line's length is the one the length rule says is there. -/
theorem stepCommitsTheDecodeFunction : Obligations.StepCommitsTheDecodeFunction := by
  unfold Obligations.StepCommitsTheDecodeFunction
  intro s b0 hs hwf hb
  have hagrees := decode_agreesWith s.image s.cursor b0
  have hevent := event_of_agreesWith hs (window_eq_cons hb ▸ hagrees)
  refine ⟨step_of_agreesWith hs hb hagrees, fun text len hline => ⟨?_, windowDecode_line_bounds hwf hb hline⟩,
    fun text hunrec => ⟨?_, commentsOnly_windowDecode s.image s.cursor b0 text hunrec⟩, fun htrunc => ?_⟩
  · rw [hevent, hline]; rfl
  · rw [hevent, hunrec]; rfl
  · rw [hevent, htrunc]; rfl

end Sys2Proof.Proofs
end

section
/-! PROOFS. The exceptions (60_exceptions.md): the host's `io_error`. -/

namespace Sys2Proof.Proofs

open Sys2Proof.Machine

/-- Point 2 of the priority of rule R125: in a run that is not over, `io_error` comes before the header and before the
decoder. -/
theorem action_of_ioErrorNow {s : State} (hr : s.resetNow = none) (hio : s.ioErrorNow = true)
    (hp : s.phase = .start ∨ s.phase = .awaiting) : s.action = .ioFailure := by
  obtain hstart | hawaiting := hp
  · simp [State.action, hr, hstart, hio]
  · simp [State.action, hr, hawaiting, hio]

/-- Settles O21: in both phases the step takes the event `ioFailure`, whose whole effect is on phase and cause. -/
theorem ioErrorEndsTheRun : Obligations.IoErrorEndsTheRun := by
  unfold Obligations.IoErrorEndsTheRun
  intro s hr hio hp
  have haction := action_of_ioErrorNow hr hio hp
  rw [step, State.event, haction]
  exact ⟨rfl, rfl⟩

end Sys2Proof.Proofs
end

section
/-! PROOFS. Reset (70_reset_and_hazards.md): the host's `reset` comes first and starts a new run. -/

namespace Sys2Proof.Proofs

open Sys2Proof.Machine

/-- Point 1 of the priority of rule R125: the host's reset takes the whole step, whatever the state and `io_error`. -/
theorem step_of_resetNow {s : State} {bytes : List Byte} (hr : s.resetNow = some bytes) :
    step s = .next (s.sampled.hostReset bytes) := by
  have haction : s.action = .hostReset bytes := by simp [State.action, hr]
  rw [step, haction]
  rfl

/-- Settles O23: the step is the host's reset, whose fields its laws give; the state after it is in `Start` with an
empty output, so the next idle step is that of the header. -/
theorem hostResetFromAnyState : Obligations.HostResetFromAnyState := by
  unfold Obligations.HostResetFromAnyState
  intro s bytes hr
  have himage := hostReset_image s.sampled bytes
  refine ⟨s.sampled.hostReset bytes, step_of_resetNow hr, hostReset_cursor _ _, hostReset_phase _ _,
    hostReset_cause _ _, hostReset_out _ _, ?bytes, ?canonical, hostReset_host _ _, fun hidle => ?header⟩
  case bytes => rw [himage, Memory.bytes_ofBytes]
  case canonical => rw [himage, Memory.wf_ofBytes]
  case header =>
    have hstep := (firstStepWritesTheHeader.1 _ hidle (hostReset_phase _ _)).1
    rwa [hostReset_out, List.nil_append] at hstep

end Sys2Proof.Proofs
end

section
/-! PROOFS. The encoding (30_encoding.md): decode and encode undo each other, the lengths of rule R52, the six bytes of
the window, and the map of the leading bytes. -/

namespace Sys2Proof.Proofs

open Sys2Proof.Machine Sys2Proof.Stated

/-! ### Decoding what was encoded -/

/-- Format RMI_MOV reads back what the encoder writes. -/
theorem decodeRmiMov_encode {b0 : Byte} {rm : RegMem} {imm : StreamField} (hrm : rm.wf = true)
    (himm : imm.isWord = wordFlag b0) (rest : List Byte) :
    decodeRmiMov b0 (encodeRegMem 0#3 rm ++ (imm.bytes ++ rest)) = .ok (.movRmImm (wordFlag b0) rm imm) rest := by
  have htail := decodeRmiTail_encode (.movRmImm (wordFlag b0)) 0#3 rm imm hrm rest
  simpa [decodeRmiMov, encodeRegMem, movImmMapped, himm] using htail

/-- Format RMI_ARITH reads back what the encoder writes, for each of its three mnemonics. -/
theorem decodeRmiArith_encode (op : ArithOp) {b0 : Byte} {rm : RegMem} {imm : StreamField} (hrm : rm.wf = true)
    (himm : imm.isWord = wordData (signExtendFlag b0) (wordFlag b0)) (rest : List Byte) :
    decodeRmiArith b0 (encodeRegMem (arithReg op) rm ++ (imm.bytes ++ rest)) =
      .ok (arithInstr op (signExtendFlag b0) (wordFlag b0) rm imm) rest := by
  have hop : arithOp (arithReg op) = some op := (arithOp_eq_some_iff _ _).2 rfl
  have htail := decodeRmiTail_encode (arithInstr op (signExtendFlag b0) (wordFlag b0)) (arithReg op) rm imm hrm rest
  simpa [decodeRmiArith, encodeRegMem, hop, himm] using htail

section
variable (op : ArithOp) (sx w : Bool) (rm : RegMem) (imm : StreamField)

theorem encode_arithInstr : encode (arithInstr op sx w rm imm) =
    leadingByte6 0b100000#6 sx w :: (encodeRegMem (arithReg op) rm ++ imm.bytes) := by
  cases op <;> rfl

theorem wf_arithInstr : (arithInstr op sx w rm imm).wf = (rm.wf && imm.isWord == wordData sx w) := by
  cases op <;> rfl

theorem lookahead_arithInstr : lookahead (arithInstr op sx w rm imm) = [] := by
  cases op <;> rfl

end

/-- An arithmetic-immediate instruction is read back, whichever its mnemonic. -/
theorem decode_encode_arithInstr (op : ArithOp) {sx w : Bool} {rm : RegMem} {imm : StreamField}
    (hwf : (arithInstr op sx w rm imm).wf = true) (rest : List Byte) :
    decode (encode (arithInstr op sx w rm imm) ++ (lookahead (arithInstr op sx w rm imm) ++ rest)) =
      .ok (arithInstr op sx w rm imm) (lookahead (arithInstr op sx w rm imm) ++ rest) := by
  obtain ⟨hrm, himm⟩ : rm.wf = true ∧ imm.isWord = wordData sx w := by simpa [wf_arithInstr] using hwf
  have h := decodeRmiArith_encode op (b0 := leadingByte6 0b100000#6 sx w) hrm (by simpa using himm) rest
  simpa [encode_arithInstr, lookahead_arithInstr, decode] using h

/-- Settles O42: the leading byte selects the family again, and the family's format reads back its fields. -/
theorem decodeOfEncode : Obligations.DecodeOfEncode := by
  unfold Obligations.DecodeOfEncode
  intro i rest hwf
  cases i with
  | movRmReg d w reg rm | addRmReg d w reg rm | subRmReg d w reg rm | cmpRmReg d w reg rm =>
    simp [encode, lookahead, decode, decodeRmr_encodeRegMem _ reg rm hwf]
  | movRmImm w rm imm =>
    obtain ⟨hrm, himm⟩ : rm.wf = true ∧ imm.isWord = w := by simpa [Instr.wf] using hwf
    have h := decodeRmiMov_encode (b0 := leadingByte7 0b1100011#7 w) hrm (by simpa using himm) rest
    simpa [encode, lookahead, decode] using h
  | movRegImm w reg imm =>
    have hfield : nextField w (imm.bytes ++ rest) = some (imm, rest) :=
      (nextField_eq_some_iff _ _ _ _).2 ⟨by simpa [Instr.wf] using hwf, rfl⟩
    simp [encode, lookahead, decode, decodeRi, hfield]
  | movAccMem w addr | movMemAcc w addr => simp [encode, lookahead, decode, decodeMa]
  | addRmImm sx w rm imm => exact decode_encode_arithInstr .add hwf rest
  | subRmImm sx w rm imm => exact decode_encode_arithInstr .sub hwf rest
  | cmpRmImm sx w rm imm => exact decode_encode_arithInstr .cmp hwf rest
  | unrecognized b0 examined =>
    cases examined with
    | none => exact decode_of_unmatched (by simpa [Instr.wf] using hwf) rest
    | some b1 => exact decode_of_unmappedReg hwf rest

/-! ### Encoding what was decoded -/

/-- `bytes` begins with the encoding of the well-formed instruction `i`, and `rest` is what follows it, any examined
byte included. -/
structure ReadsAs (bytes : List Byte) (i : Instr) (rest : List Byte) : Prop where
  wf : i.wf = true
  bytes_eq : bytes = encode i ++ rest
  lookahead_prefix : lookahead i <+: rest

/-- Format RMR, for a constructor that is encoded in it after `b0`. -/
theorem readsAs_of_decodeRmr {b0 : Byte} {tl : List Byte} {mk : RegIdx → RegMem → Instr} {i : Instr} {rest : List Byte}
    (hwf : ∀ reg rm, (mk reg rm).wf = rm.wf) (hencode : ∀ reg rm, encode (mk reg rm) = b0 :: encodeRegMem reg rm)
    (hlook : ∀ reg rm, lookahead (mk reg rm) = []) (h : decodeRmr mk tl = .ok i rest) : ReadsAs (b0 :: tl) i rest := by
  obtain ⟨reg, rm, hrm, rfl, rfl⟩ := decodeRmr_eq_ok _ _ _ _ h
  exact ⟨(hwf reg rm).trans hrm, by simp [hencode], by simp [hlook]⟩

/-- The fallback row of the formats with an unmapped `reg`: the examined byte is the first of the rest (rule R57). -/
theorem readsAs_unmapped {b0 b1 : Byte} {tl : List Byte} (h : unmappedReg b0 (regField b1) = true) :
    ReadsAs (b0 :: b1 :: tl) (.unrecognized b0 (some b1)) (b1 :: tl) :=
  ⟨h, rfl, ⟨tl, rfl⟩⟩

theorem readsAs_of_decodeRmiMov {b0 : Byte} {tl : List Byte} {i : Instr} {rest : List Byte}
    (hc : classify b0 = .movRmImm) (h : decodeRmiMov b0 tl = .ok i rest) : ReadsAs (b0 :: tl) i rest := by
  obtain ⟨rm, imm, hrm, himm, rfl, rfl⟩ | ⟨b1, tl, rfl, hreg, rfl, rfl⟩ := decodeRmiMov_eq_ok _ _ _ _ h
  · exact ⟨by simp [Instr.wf, hrm, himm], by simp [encode, leadingByte_of_movRmImm b0 hc], List.nil_prefix⟩
  · exact readsAs_unmapped (by simp [unmappedReg, hc, hreg])

theorem readsAs_of_decodeRmiArith {b0 : Byte} {tl : List Byte} {i : Instr} {rest : List Byte}
    (hc : classify b0 = .arithImm) (h : decodeRmiArith b0 tl = .ok i rest) : ReadsAs (b0 :: tl) i rest := by
  obtain ⟨op, rm, imm, hrm, himm, rfl, rfl⟩ | ⟨b1, tl, rfl, hreg, rfl, rfl⟩ := decodeRmiArith_eq_ok _ _ _ _ h
  · exact ⟨by simp [wf_arithInstr, hrm, himm], by simp [encode_arithInstr, leadingByte_of_arithImm b0 hc],
      by simp [lookahead_arithInstr]⟩
  · exact readsAs_unmapped (by simp [unmappedReg, hc, hreg])

theorem readsAs_of_decodeRi {b0 : Byte} {tl : List Byte} {i : Instr} {rest : List Byte}
    (hc : classify b0 = .movRegImm) (h : decodeRi b0 tl = .ok i rest) : ReadsAs (b0 :: tl) i rest := by
  obtain ⟨imm, himm, rfl, rfl⟩ := decodeRi_eq_ok _ _ _ _ h
  exact ⟨by simp [Instr.wf, himm], by simp [encode, leadingByte_of_movRegImm b0 hc], List.nil_prefix⟩

theorem readsAs_of_decodeMa {b0 : Byte} {tl : List Byte} {i : Instr} {rest : List Byte}
    (hc : classify b0 = .movAccumulator) (h : decodeMa b0 tl = .ok i rest) : ReadsAs (b0 :: tl) i rest := by
  obtain ⟨addr, rfl, rfl⟩ := decodeMa_eq_ok _ _ _ _ h
  have hb0 := leadingByte_of_movAccumulator b0 hc
  cases hd : directionFlag b0 with
  | true | false => rw [hd] at hb0; exact ⟨rfl, by simp [encode, hb0], List.nil_prefix⟩

/-- What the decoder answers is what the encoder wrote, family by family. -/
theorem readsAs_of_decode {bytes : List Byte} {i : Instr} {rest : List Byte} (h : decode bytes = .ok i rest) :
    ReadsAs bytes i rest := by
  cases bytes with
  | nil => cases h
  | cons b0 tl =>
    simp only [decode, nextByte_cons] at h
    cases hc : classify b0 <;> simp only [hc] at h
    case movRmImm => exact readsAs_of_decodeRmiMov hc h
    case movRmReg =>
      exact readsAs_of_decodeRmr (fun _ _ => rfl) (by simp [encode, leadingByte_of_movRmReg b0 hc]) (fun _ _ => rfl) h
    case addRmReg =>
      exact readsAs_of_decodeRmr (fun _ _ => rfl) (by simp [encode, leadingByte_of_addRmReg b0 hc]) (fun _ _ => rfl) h
    case subRmReg =>
      exact readsAs_of_decodeRmr (fun _ _ => rfl) (by simp [encode, leadingByte_of_subRmReg b0 hc]) (fun _ _ => rfl) h
    case cmpRmReg =>
      exact readsAs_of_decodeRmr (fun _ _ => rfl) (by simp [encode, leadingByte_of_cmpRmReg b0 hc]) (fun _ _ => rfl) h
    case arithImm => exact readsAs_of_decodeRmiArith hc h
    case movAccumulator => exact readsAs_of_decodeMa hc h
    case movRegImm => exact readsAs_of_decodeRi hc h
    case unrecognized =>
      obtain ⟨rfl, rfl⟩ := Decoded.ok.inj h
      exact ⟨by simp [Instr.wf, hc], rfl, List.nil_prefix⟩

/-- The bytes of a well-formed instruction are as many as rule R52 gives. -/
theorem length_encode {i : Instr} (h : i.wf = true) : (encode i).length = instrLength i := by
  have hlaw : Laws.EncodedLength.Statement i := by
    cases i with
    | movRmReg d w reg rm => exact Laws.EncodedLength.movRmReg d w reg rm
    | movRmImm w rm imm => exact Laws.EncodedLength.movRmImm w rm imm
    | movRegImm w reg imm => exact Laws.EncodedLength.movRegImm w reg imm
    | movAccMem w addr => exact Laws.EncodedLength.movAccMem w addr
    | movMemAcc w addr => exact Laws.EncodedLength.movMemAcc w addr
    | addRmReg d w reg rm => exact Laws.EncodedLength.addRmReg d w reg rm
    | subRmReg d w reg rm => exact Laws.EncodedLength.subRmReg d w reg rm
    | cmpRmReg d w reg rm => exact Laws.EncodedLength.cmpRmReg d w reg rm
    | addRmImm sx w rm imm => exact Laws.EncodedLength.addRmImm sx w rm imm
    | subRmImm sx w rm imm => exact Laws.EncodedLength.subRmImm sx w rm imm
    | cmpRmImm sx w rm imm => exact Laws.EncodedLength.cmpRmImm sx w rm imm
    | unrecognized b0 examined => exact Laws.EncodedLength.unrecognized b0 examined
  exact (hlaw h).1

/-- Settles O43: the decoder's answer reads as an encoding, whose length is the instruction's. -/
theorem encodeOfDecode : Obligations.EncodeOfDecode := by
  unfold Obligations.EncodeOfDecode
  intro bytes i rest h
  obtain ⟨hwf, hbytes, hlook⟩ := readsAs_of_decode h
  exact ⟨hwf, hbytes, hlook, by rw [hbytes, List.length_append, length_encode hwf]⟩

/-! ### The window of six bytes -/

/-- The examined byte is kept when the bytes are cut to the window: it is examined after one byte only. -/
theorem lookahead_prefix_take {i : Instr} {rest : List Byte} (h : lookahead i <+: rest) :
    lookahead i <+: rest.take (6 - instrLength i) := by
  cases i with
  | unrecognized b0 examined =>
    cases examined with
    | none => exact List.nil_prefix
    | some b1 =>
      obtain ⟨tl, rfl⟩ := h
      exact ⟨tl.take 4, rfl⟩
  | _ => exact List.nil_prefix

/-- Truncation means that the length rule asks for more bytes than there are (rules R52, R122). -/
theorem decode_eq_truncated_iff (b0 : Byte) (rest : List Byte) :
    decode (b0 :: rest) = .truncatedStream ↔ 1 + rest.length < neededLength b0 rest.head? := by
  have h := decode_answersByLength b0 rest
  generalize decode (b0 :: rest) = d at h
  cases h with
  | complete hlen hfit => exact iff_of_false (by simp) (Nat.not_lt.2 hfit)
  | truncated hmissing => exact iff_of_true rfl hmissing

theorem decode_take_eq_truncated_iff (bytes : List Byte) :
    decode bytes = .truncatedStream ↔ decode (bytes.take 6) = .truncatedStream := by
  cases bytes with
  | nil => rfl
  | cons b0 rest =>
    have hneeded : neededLength b0 rest.head? ≤ 6 := neededLength_le_window b0 _
    have hhead : (rest.take 5).head? = rest.head? := by cases rest <;> rfl
    rw [List.take_succ_cons, decode_eq_truncated_iff, decode_eq_truncated_iff, hhead, List.length_take]
    omega

theorem length_lt_six_of_truncated {bytes : List Byte} (h : decode bytes = .truncatedStream) : bytes.length < 6 := by
  cases bytes with
  | nil => decide
  | cons b0 rest =>
    have hneeded : neededLength b0 rest.head? ≤ 6 := neededLength_le_window b0 _
    have hmissing := (decode_eq_truncated_iff b0 rest).1 h
    rw [List.length_cons]
    omega

/-- Settles O44: an encoding and its examined byte fit in six bytes, so it is decoded again from those, and no
instruction needs more. -/
theorem decodeExaminesAtMostSixBytes : Obligations.DecodeExaminesAtMostSixBytes := by
  unfold Obligations.DecodeExaminesAtMostSixBytes
  intro bytes
  refine ⟨fun i rest h => ?_, decode_take_eq_truncated_iff bytes, length_lt_six_of_truncated⟩
  obtain ⟨hwf, rfl, hlook⟩ := readsAs_of_decode h
  obtain ⟨tl, htl⟩ := lookahead_prefix_take hlook
  have hlen := length_encode hwf
  have htake : (encode i ++ rest).take 6 = encode i ++ rest.take (6 - instrLength i) := by
    rw [List.take_append, hlen, List.take_of_length_le (by rw [hlen]; exact (instrLength_bounds i).2)]
  rw [htake, ← htl]
  exact decodeOfEncode i tl hwf

/-! ### Lengths (rules R50 to R52) -/

section
variable {b0 : Byte} {reg : RegIdx} {rm : RegMem} {imm : StreamField} {wd : Bool}

theorem length_rmr_bytes (h : rm.wf = true) :
    (b0 :: encodeRegMem reg rm).length = 2 + dispLen rm.modBits rm.rmBits ∧ (b0 :: encodeRegMem reg rm).length ≤ 4 := by
  rw [(Laws.EncodedLength.rmr b0 reg rm h).1]
  exact ⟨rfl, (rmrLength_bounds rm).2⟩

theorem length_rmi_bytes (h : (rm.wf && imm.isWord == wd) = true) :
    (b0 :: (encodeRegMem reg rm ++ imm.bytes)).length =
      2 + dispLen rm.modBits rm.rmBits + (if imm.isWord then 2 else 1) ∧
    3 ≤ (b0 :: (encodeRegMem reg rm ++ imm.bytes)).length ∧ (b0 :: (encodeRegMem reg rm ++ imm.bytes)).length ≤ 6 := by
  have hrm : rm.wf = true := (Bool.and_eq_true_iff.1 h).1
  rw [(Laws.EncodedLength.rmi b0 reg rm imm _ hrm rfl).1]
  exact ⟨rfl, rmiLength_bounds rm _⟩

end

/-- Format RMI_ARITH has two immediate bytes exactly for `s = 0` and `w = 1` (rule R51). -/
theorem isWord_iff_of_wordData {rm : RegMem} {imm : StreamField} {sx w : Bool}
    (h : (rm.wf && imm.isWord == wordData sx w) = true) : imm.isWord = true ↔ sx = false ∧ w = true := by
  have himm : imm.isWord = wordData sx w := eq_of_beq (Bool.and_eq_true_iff.1 h).2
  simp [himm, wordData]

/-- Settles O45: each format's bytes, counted by its own lemma, and each width check of the well-formed terms. -/
theorem lengthsByFormat : Obligations.LengthsByFormat := by
  unfold Obligations.LengthsByFormat
  intro d sx w reg rm imm addr b0 e
  simp only [List.forall_mem_cons, List.not_mem_nil, false_imp_iff, implies_true, and_true]
  refine ⟨⟨length_rmr_bytes, length_rmr_bytes, length_rmr_bytes, length_rmr_bytes⟩,
    ⟨length_rmi_bytes, length_rmi_bytes, length_rmi_bytes, length_rmi_bytes⟩,
    ⟨isWord_iff_of_wordData, isWord_iff_of_wordData, isWord_iff_of_wordData⟩, fun h => ?movRmImm, fun h => ?movRegImm,
    rfl, rfl, rfl⟩
  case movRmImm => exact eq_of_beq (Bool.and_eq_true_iff.1 h).2
  case movRegImm => exact ⟨eq_of_beq h, length_encode h⟩

/-! ### The addressing resolver -/

theorem isReg_iff_modBits (rm : RegMem) : rm.isReg = true ↔ rm.modBits = 0b11#2 := by
  match rm with
  | .reg _ | .direct _ | .indexed _ none | .indexed _ (some (.byte _)) | .indexed _ (some (.word _)) =>
    simp [RegMem.isReg, RegMem.modBits]

/-- Settles O52: what the resolver answers is a well-formed operand of the given sub-fields, whose displacement bytes
are the ones consumed. -/
theorem resolverConsumesDispLen : Obligations.ResolverConsumesDispLen := by
  unfold Obligations.ResolverConsumesDispLen
  intro md r_m bytes
  refine ⟨resolveRegMem_eq_none_iff md r_m bytes, fun rm rest h => ?_⟩
  obtain ⟨hwf, rfl, rfl, rfl⟩ := resolveRegMem_eq_some _ _ _ _ _ h
  exact ⟨by rw [← length_dispBytes rm hwf, List.drop_left], hwf, rfl, rfl, isReg_iff_modBits rm⟩

/-! ### The leading bytes -/

/-- Settles O46: the decoder is run on each word. -/
theorem specEncodingsDecode : Obligations.SpecEncodingsDecode := by
  unfold Obligations.SpecEncodingsDecode
  exact ⟨rfl, rfl, rfl, rfl, rfl, rfl, rfl⟩

/-- The family each range of leading bytes selects (rules R53, R58). -/
theorem classify_ranges : ∀ b0 : Byte, (classify b0 = .addRmReg ↔ b0.toNat ≤ 0x03) ∧
    (classify b0 = .subRmReg ↔ 0x28 ≤ b0.toNat ∧ b0.toNat ≤ 0x2B) ∧
    (classify b0 = .cmpRmReg ↔ 0x38 ≤ b0.toNat ∧ b0.toNat ≤ 0x3B) ∧
    (classify b0 = .arithImm ↔ 0x80 ≤ b0.toNat ∧ b0.toNat ≤ 0x83) ∧
    (classify b0 = .movRmReg ↔ 0x88 ≤ b0.toNat ∧ b0.toNat ≤ 0x8B) ∧
    (classify b0 = .movAccumulator ↔ 0xA0 ≤ b0.toNat ∧ b0.toNat ≤ 0xA3) ∧
    (classify b0 = .movRegImm ↔ 0xB0 ≤ b0.toNat ∧ b0.toNat ≤ 0xBF) ∧
    (classify b0 = .movRmImm ↔ 0xC6 ≤ b0.toNat ∧ b0.toNat ≤ 0xC7) ∧
    (classify b0 = .unrecognized ↔ UnmatchedLeadingByte b0) := by
  decide

/-- Settles O47: the classifier is run on the 256 leading bytes, for their families and for the count. -/
theorem leadingByteMap : Obligations.LeadingByteMap := by
  unfold Obligations.LeadingByteMap
  exact ⟨classify_ranges, by decide⟩

end Sys2Proof.Proofs
end

section
/-! PROOFS. The meanings of the instructions (40_operands.md, 41_mov.md, 42_arith.md): the operands and lines as the
statements write them, each instruction's next state, its frame, and the redundant encodings. -/

namespace Sys2Proof.Proofs

open Sys2Proof.Machine Sys2Proof.Safety Sys2Proof.Stated

/-! ### Operands as the statements write them -/

theorem fieldValue_eq_fieldInt (f : StreamField) : fieldValue f = fieldInt f := by
  cases f with
  | byte b => exact fieldValue_byte b
  | word v => exact fieldValue_word v

/-- A based operand is the base and a displacement term in brackets (rule R81). -/
theorem renderBased_eq_dispTerm (base : Text) (v : Int) :
    renderBased base v = ['['] ++ base ++ dispTerm v ++ [']'] := by
  obtain hneg | rfl | hpos := lt_trichotomy v 0
  · simp [renderBased_neg base v hneg, dispTerm, hneg.ne, hneg.not_gt]
  · simp [dispTerm]
  · simp [renderBased_pos base v hpos, dispTerm, hpos.ne', hpos]

/-- A register-or-memory operand prints as `rmText` (rules R80 to R82). -/
theorem render_regMemOperand_eq_rmText (w : Bool) (rm : RegMem) : render (regMemOperand w rm) = rmText w rm := by
  match rm with
  | .reg i => rfl
  | .direct addr => rfl
  | .indexed r none => exact renderBased_zero (eaBase r)
  | .indexed r (some f) =>
    rw [regMemOperand_indexed, render_based, renderBased_eq_dispTerm, dispValue, fieldValue_eq_fieldInt]
    rfl

/-- The destination of an immediate prints as `destText` (rule R84). -/
theorem immDestText_eq_destText (w : Bool) (rm : RegMem) : immDestText w rm = destText w rm := by
  cases rm with
  | reg i => rfl
  | direct addr => rfl
  | indexed r disp =>
    exact congrArg (sizeKeyword w ++ ·) (render_regMemOperand_eq_rmText w (.indexed r disp))

/-- An immediate prints as `immText` (rule R83). -/
theorem render_imm_eq_immText (f : StreamField) : render (.imm (fieldValue f)) = immText f := by
  rw [render_imm, fieldValue_eq_fieldInt, immText]
  split
  · next h => exact renderImm_nonneg _ h
  · next h => exact renderImm_neg _ (Int.not_le.1 h)

/-! ### Lines as the statements write them -/

theorem line_eq_twoOperands (mn dest src : Text) : line mn dest src = twoOperands (mn ++ [' ']) dest src := rfl

theorem rmrLine_eq_rmrText (mn : Text) (d w : Bool) (reg : RegIdx) (rm : RegMem) :
    rmrLine mn d w reg rm = rmrText (mn ++ [' ']) d w reg rm := by
  rw [rmrLine, render_regMemOperand_eq_rmText]
  rfl

theorem rmiLine_eq_twoOperands (mn : Text) (w : Bool) (rm : RegMem) (imm : StreamField) :
    rmiLine mn w rm imm = twoOperands (mn ++ [' ']) (destText w rm) (immText imm) := by
  rw [rmiLine, immDestText_eq_destText, render_imm_eq_immText, line_eq_twoOperands]

theorem instrText_movRegImm (w : Bool) (reg : RegIdx) (imm : StreamField) :
    instrText (.movRegImm w reg imm) = twoOperands ['m', 'o', 'v', ' '] (regName w reg) (immText imm) := by
  rw [instrText, render_imm_eq_immText]
  rfl

/-! ### The next states -/

/-- An instruction whose text is known emits it and consumes its length (rules R36, R109). -/
theorem exec_eq_emits (i : Instr) (s : State) {text : Text} (h : instrText i = text) :
    exec i s = .next (emits s text (instrLength i)) := by
  rw [exec_eq_commit, h, commit_eq_emits]

/-- Settles O1: each prints its `RmrLine`. -/
theorem rmrInstructionsEmitTheirLine : Obligations.RmrInstructionsEmitTheirLine := by
  unfold Obligations.RmrInstructionsEmitTheirLine
  intro d w reg rm s
  have hline (mn : Text) := rmrLine_eq_rmrText mn d w reg rm
  exact ⟨exec_eq_emits (.movRmReg d w reg rm) s (hline mnMov), exec_eq_emits (.addRmReg d w reg rm) s (hline mnAdd),
    exec_eq_emits (.subRmReg d w reg rm) s (hline mnSub), exec_eq_emits (.cmpRmReg d w reg rm) s (hline mnCmp)⟩

/-- Format RMI_ARITH has two immediate bytes exactly for `s = 0` and `w = 1` (rule R51). -/
theorem immLen_wordData (sx w : Bool) : immLen (wordData sx w) = if sx = false ∧ w = true then 2 else 1 := by
  revert sx w; decide

/-- Settles O2: each prints its `RmiLine`, and its length counts the immediate of the word-data flag. -/
theorem arithImmInstructionsEmitTheirLine : Obligations.ArithImmInstructionsEmitTheirLine := by
  unfold Obligations.ArithImmInstructionsEmitTheirLine
  intro sx w rm imm s
  rw [← immLen_wordData]
  have hline (mn : Text) := rmiLine_eq_twoOperands mn w rm imm
  exact ⟨exec_eq_emits (.addRmImm sx w rm imm) s (hline mnAdd), exec_eq_emits (.subRmImm sx w rm imm) s (hline mnSub),
    exec_eq_emits (.cmpRmImm sx w rm imm) s (hline mnCmp)⟩

/-- Settles O3: format RMI_MOV prints an `RmiLine`, format RI the register and the immediate. -/
theorem movImmInstructionsEmitTheirLine : Obligations.MovImmInstructionsEmitTheirLine := by
  unfold Obligations.MovImmInstructionsEmitTheirLine
  intro w reg rm imm s
  exact ⟨exec_eq_emits (.movRmImm w rm imm) s (rmiLine_eq_twoOperands mnMov w rm imm),
    exec_eq_emits (.movRegImm w reg imm) s (instrText_movRegImm w reg imm)⟩

/-- Settles O4: the accumulator is register 0, the address is unsigned. -/
theorem accumulatorMovesEmitTheirLine : Obligations.AccumulatorMovesEmitTheirLine := by
  unfold Obligations.AccumulatorMovesEmitTheirLine
  intro w addr s
  exact ⟨exec_eq_emits (.movAccMem w addr) s (line_eq_twoOperands mnMov _ _),
    exec_eq_emits (.movMemAcc w addr) s (line_eq_twoOperands mnMov _ _)⟩

/-- Settles O5: the text is the comment line of `b0`. -/
theorem fallbackEmitsTheCommentLine : Obligations.FallbackEmitsTheCommentLine := by
  unfold Obligations.FallbackEmitsTheCommentLine
  intro b0 examined s
  exact exec_eq_emits (.unrecognized b0 examined) s (commentLine_eq_hexOf b0)

/-- Settles O6: every meaning is a commit, and its length is between 1 and 6. -/
theorem instructionsOnlyWriteOutputAndCursor : Obligations.InstructionsOnlyWriteOutputAndCursor := by
  unfold Obligations.InstructionsOnlyWriteOutputAndCursor
  intro i s t h
  obtain rfl : s.commit (instrText i) (instrLength i) = t := by simpa [exec_eq_commit] using h
  obtain ⟨hpos, hmax⟩ := instrLength_bounds i
  exact ⟨rfl, rfl, rfl, rfl, fun a => rfl, List.prefix_append _ _, Nat.add_le_add_left hpos _,
    Nat.add_le_add_left hmax _⟩

/-! ### Redundant encodings (rule R61) -/

/-- A zero displacement, or none, prints as the base alone (rule R81). -/
theorem rmText_of_dispValue_zero (w : Bool) (r : RegIdx) {disp : Option StreamField} (h : dispValue disp = 0) :
    rmText w (.indexed r disp) = ['['] ++ eaBase r ++ [']'] := by
  rw [← render_regMemOperand_eq_rmText, regMemOperand_indexed, render_based, h, renderBased_zero]

theorem printsBaseAlone_of_dispValue_zero (d sx w : Bool) (reg r : RegIdx) (imm : StreamField)
    {disp : Option StreamField} (h : dispValue disp = 0) : PrintsBaseAlone d sx w reg r imm disp := by
  have hmem := rmText_of_dispValue_zero w r h
  have hrmr (mn : Text) := rmrLine_eq_rmrText mn d w reg (.indexed r disp)
  have hrmi (mn : Text) := rmiLine_eq_twoOperands mn w (.indexed r disp) imm
  simp only [rmrText, destText, hmem] at hrmr hrmi
  exact ⟨hrmr mnMov, hrmr mnAdd, hrmr mnSub, hrmr mnCmp, hrmi mnMov, hrmi mnAdd, hrmi mnSub, hrmi mnCmp⟩

/-- Settles O55: the texts do not depend on `d` for a register pair, on the format for a register and an immediate, on
`s` with `w = 0`, or on the width of a zero displacement. -/
theorem redundantEncodingsPrintAlike : Obligations.RedundantEncodingsPrintAlike := by
  unfold Obligations.RedundantEncodingsPrintAlike
  intro d sx w r q rm imm s
  refine ⟨⟨rfl, rfl⟩, ⟨rfl, rfl⟩, ⟨rfl, rfl⟩, ⟨rfl, rfl⟩, ?registerImmediate, fun x => ?byteImmediate,
    printsBaseAlone_of_dispValue_zero d sx w q r imm rfl, printsBaseAlone_of_dispValue_zero d sx w q r imm rfl,
    fun _ => printsBaseAlone_of_dispValue_zero d sx w q r imm rfl⟩
  case registerImmediate =>
    simp only [List.forall_mem_cons, List.not_mem_nil, false_imp_iff, implies_true, and_true]
    exact ⟨rmiLine_eq_twoOperands mnMov w (.reg r) imm, instrText_movRegImm w r imm⟩
  case byteImmediate =>
    have hlen : 2 + dispLen rm.modBits rm.rmBits + (if x = false ∧ false = true then 2 else 1) =
        3 + dispLen rm.modBits rm.rmBits := by
      simp only [Bool.false_eq_true, and_false, if_false]
      omega
    exact hlen ▸ arithImmInstructionsEmitTheirLine x false rm imm s

end Sys2Proof.Proofs
end

section
/-! PROOFS. How long the lines are and what stands in them (40_operands.md section 7): bounds operand by operand, and
the register forms. -/

namespace Sys2Proof.Proofs

open Sys2Proof.Machine Sys2Proof.Safety Sys2Proof.Stated

/-! ### Bounds of the lines -/

/-- At most `len` characters, at most `brackets` of them an opening bracket. -/
abbrev Bounded (len brackets : Nat) (t : Text) : Prop := t.length ≤ len ∧ t.count '[' ≤ brackets

namespace Bounded

variable {len brackets len' brackets' : Nat} {t u : Text}

theorem append (ht : Bounded len brackets t) (hu : Bounded len' brackets' u) :
    Bounded (len + len') (brackets + brackets') (t ++ u) := by
  obtain ⟨htl, htb⟩ := ht
  obtain ⟨hul, hub⟩ := hu
  exact ⟨by rw [List.length_append]; omega, by rw [List.count_append]; omega⟩

theorem mono (ht : Bounded len brackets t) (hl : len ≤ len' := by decide) (hb : brackets ≤ brackets' := by decide) :
    Bounded len' brackets' t :=
  ⟨ht.1.trans hl, ht.2.trans hb⟩

end Bounded

/-- A number of the grammar is made of digits. -/
theorem isDigit_of_isNumber {t : Text} (h : isNumber t = true) {c : Char} (hc : c ∈ t) : isDigit c = true := by
  cases t with
  | nil => cases hc
  | cons d ds =>
    have hcases : d = '0' ∧ ds = [] ∨ (d ≠ '0' ∧ isDigit d = true) ∧ ∀ x ∈ ds, isDigit x = true := by
      simpa [isNumber] using h
    obtain ⟨rfl, rfl⟩ | ⟨⟨-, hd⟩, hds⟩ := hcases
    · obtain rfl := List.mem_singleton.1 hc
      decide
    · obtain rfl | hc := List.mem_cons.1 hc
      · exact hd
      · exact hds c hc

theorem leftBracket_not_mem_dec (v : Nat) : '[' ∉ dec v := fun h => by
  simpa using (show isDigit '[' = false by decide).symm.trans (isDigit_of_isNumber (isNumber_dec v) h)

/-- A number of 16 bits has at most five digits. -/
theorem bounded_dec {v : Nat} (h : v < 65536) : Bounded 5 0 (dec v) :=
  ⟨Nat.toDigits_length 10 v 5 (by decide) (h.trans (by decide)),
    (List.count_eq_zero.2 (leftBracket_not_mem_dec v)).le⟩

theorem bounded_regName (w : Bool) (i : RegIdx) : Bounded 2 0 (regName w i) := by
  revert w i; decide

theorem bounded_eaBase (r : RegIdx) : Bounded 7 0 (eaBase r) := by
  revert r; decide

theorem bounded_dispTerm (f : StreamField) : Bounded 8 0 (dispTerm (fieldInt f)) := by
  have hbounds := fieldValue_bounds f
  rw [fieldValue_eq_fieldInt] at hbounds
  unfold dispTerm
  split_ifs
  · decide
  · exact (show Bounded 3 0 _ by decide).append (bounded_dec (by omega))
  · exact (show Bounded 3 0 _ by decide).append (bounded_dec (by omega))

theorem bounded_immText (f : StreamField) : Bounded 6 0 (immText f) := by
  have hbounds := fieldValue_bounds f
  rw [fieldValue_eq_fieldInt] at hbounds
  unfold immText
  split_ifs
  · exact (bounded_dec (by omega)).mono
  · exact (show Bounded 1 0 _ by decide).append (bounded_dec (by omega))

/-- What stands in brackets is at most 15 characters long. -/
theorem bounded_brackets {len : Nat} {t : Text} (ht : Bounded len 0 t) (hl : len ≤ 15) :
    Bounded 17 1 (['['] ++ t ++ [']']) :=
  (((show Bounded 1 1 _ by decide).append ht).append
    (show Bounded 1 0 _ by decide)).mono (by omega)

theorem bounded_rmText (w : Bool) (rm : RegMem) : Bounded 17 1 (rmText w rm) := by
  match rm with
  | .reg i => exact (bounded_regName w i).mono
  | .direct addr => exact bounded_brackets (bounded_dec addr.isLt) (by decide)
  | .indexed r none => exact bounded_brackets (bounded_eaBase r) (by decide)
  | .indexed r (some f) =>
    have h := bounded_brackets ((bounded_eaBase r).append (bounded_dispTerm f)) (by decide)
    rwa [← List.append_assoc] at h

theorem bounded_destText (w : Bool) (rm : RegMem) : Bounded 22 1 (destText w rm) := by
  have hkeyword : Bounded 5 0 (sizeKeyword w) := by revert w; decide
  cases rm with
  | reg i => exact (bounded_regName w i).mono
  | direct addr => exact (hkeyword.append (bounded_rmText w _)).mono
  | indexed r disp => exact (hkeyword.append (bounded_rmText w _)).mono

/-- Two operands of at most 28 characters, with one bracket between them, make a line within the bounds. -/
theorem bounded_twoOperands {mn dest src : Text} {ld ls bd bs : Nat} (hmn : Bounded 4 0 mn) (hd : Bounded ld bd dest)
    (hs : Bounded ls bs src) (hlen : ld + ls ≤ 28) (hb : bd + bs ≤ 1) : Bounded 35 1 (twoOperands mn dest src) :=
  ((((hmn.append hd).append (show Bounded 2 0 _ by decide)).append hs).append
    (show Bounded 1 0 _ by decide)).mono (by omega) (by omega)

theorem bounded_rmrLine {mn : Text} (hmn : Bounded 4 0 (mn ++ [' '])) (d w : Bool) (reg : RegIdx) (rm : RegMem) :
    Bounded 35 1 (rmrLine mn d w reg rm) := by
  rw [rmrLine_eq_rmrText, rmrText]
  split_ifs
  · exact bounded_twoOperands hmn (bounded_regName w reg) (bounded_rmText w rm) (by decide) (by decide)
  · exact bounded_twoOperands hmn (bounded_rmText w rm) (bounded_regName w reg) (by decide) (by decide)

theorem bounded_rmiLine {mn : Text} (hmn : Bounded 4 0 (mn ++ [' '])) (w : Bool) (rm : RegMem) (imm : StreamField) :
    Bounded 35 1 (rmiLine mn w rm imm) := by
  rw [rmiLine_eq_twoOperands]
  exact bounded_twoOperands hmn (bounded_destText w rm) (bounded_immText imm) (by decide) (by decide)

theorem bounded_commentLine : ∀ b0 : Byte, Bounded 35 1 (commentLine b0) := by decide

theorem bounded_instrText (i : Instr) : Bounded 35 1 (instrText i) := by
  have hmov : Bounded 4 0 (mnMov ++ [' ']) := by decide
  have hadd : Bounded 4 0 (mnAdd ++ [' ']) := by decide
  have hsub : Bounded 4 0 (mnSub ++ [' ']) := by decide
  have hcmp : Bounded 4 0 (mnCmp ++ [' ']) := by decide
  cases i with
  | movRmReg d w reg rm => exact bounded_rmrLine hmov d w reg rm
  | movRmImm w rm imm => exact bounded_rmiLine hmov w rm imm
  | movRegImm w reg imm =>
    rw [instrText_movRegImm]
    exact bounded_twoOperands hmov (bounded_regName w reg) (bounded_immText imm) (by decide) (by decide)
  | movAccMem w addr =>
    exact bounded_twoOperands hmov (bounded_regName w 0#3) (bounded_rmText w (.direct addr)) (by decide) (by decide)
  | movMemAcc w addr =>
    exact bounded_twoOperands hmov (bounded_rmText w (.direct addr)) (bounded_regName w 0#3) (by decide) (by decide)
  | addRmReg d w reg rm => exact bounded_rmrLine hadd d w reg rm
  | subRmReg d w reg rm => exact bounded_rmrLine hsub d w reg rm
  | cmpRmReg d w reg rm => exact bounded_rmrLine hcmp d w reg rm
  | addRmImm sx w rm imm => exact bounded_rmiLine hadd w rm imm
  | subRmImm sx w rm imm => exact bounded_rmiLine hsub w rm imm
  | cmpRmImm sx w rm imm => exact bounded_rmiLine hcmp w rm imm
  | unrecognized b0 examined => exact bounded_commentLine b0

/-! ### Register forms -/

/-- A text with no bracket and no digit. -/
def Plain (t : Text) : Prop := '[' ∉ t ∧ ∀ c ∈ t, isDigit c = false

/-- The test of a concrete text, character by character. -/
theorem Plain.of_all {t : Text} (h : (t.all fun c => c != '[' && !isDigit c) = true) : Plain t := by
  have hall : ∀ c ∈ t, c ≠ '[' ∧ isDigit c = false := by simpa using h
  exact ⟨fun hmem => (hall _ hmem).1 rfl, fun c hc => (hall c hc).2⟩

theorem Plain.append {t u : Text} (ht : Plain t) (hu : Plain u) : Plain (t ++ u) := by
  obtain ⟨htb, htd⟩ := ht
  obtain ⟨hub, hud⟩ := hu
  exact ⟨by simp [htb, hub], fun c hc => (List.mem_append.1 hc).elim (htd c) (hud c)⟩

theorem plain_regName (w : Bool) (i : RegIdx) : Plain (regName w i) := .of_all (by revert w i; decide)

theorem plain_comma : Plain [',', ' '] := .of_all (by decide)

theorem plain_newline : Plain ['\n'] := .of_all (by decide)

theorem plain_mnMov : Plain (mnMov ++ [' ']) := .of_all (by decide)

theorem plain_mnAdd : Plain (mnAdd ++ [' ']) := .of_all (by decide)

theorem plain_mnSub : Plain (mnSub ++ [' ']) := .of_all (by decide)

theorem plain_mnCmp : Plain (mnCmp ++ [' ']) := .of_all (by decide)

/-- Two register names, in either order. -/
theorem plain_rmrLine_reg {mn : Text} (hmn : Plain (mn ++ [' '])) (d w : Bool) (reg r : RegIdx) :
    Plain (rmrLine mn d w reg (.reg r)) := by
  have hpair (a b : RegIdx) : Plain (twoOperands (mn ++ [' ']) (regName w a) (regName w b)) :=
    (((hmn.append (plain_regName w a)).append plain_comma).append (plain_regName w b)).append plain_newline
  rw [rmrLine_eq_rmrText, rmrText]
  split_ifs
  · exact hpair reg r
  · exact hpair r reg

theorem leftBracket_not_mem_immText (imm : StreamField) : '[' ∉ immText imm :=
  List.count_eq_zero.1 (Nat.le_zero.1 (bounded_immText imm).2)

/-- A register name and an immediate: no bracket, and no digit before the immediate, which ends the line. -/
theorem plain_before_immText {mn : Text} (hmn : Plain (mn ++ [' '])) (w : Bool) (r : RegIdx) (imm : StreamField) :
    '[' ∉ twoOperands (mn ++ [' ']) (regName w r) (immText imm) ∧
    ∃ before, (∀ c ∈ before, isDigit c = false) ∧
      twoOperands (mn ++ [' ']) (regName w r) (immText imm) = before ++ immText imm ++ ['\n'] := by
  obtain ⟨hbracket, hdigit⟩ := (hmn.append (plain_regName w r)).append plain_comma
  refine ⟨fun h => ?_, _, hdigit, rfl⟩
  obtain h | h := List.mem_append.1 h
  · exact (List.mem_append.1 h).elim hbracket (leftBracket_not_mem_immText imm)
  · exact plain_newline.1 h

/-- Settles O56: the bounds are added up operand by operand, the register forms are made of names, and the longest
line is run. -/
theorem emittedLinesAreShortAndHaveOneBracket : Obligations.EmittedLinesAreShortAndHaveOneBracket := by
  unfold Obligations.EmittedLinesAreShortAndHaveOneBracket
  refine ⟨bounded_instrText, fun d w reg r => ?registers, fun sx w r imm => ?immediates, ?longest⟩
  case registers =>
    have hrmr {mn : Text} (hmn : Plain (mn ++ [' '])) := plain_rmrLine_reg hmn d w reg r
    simp only [List.forall_mem_cons, List.not_mem_nil, false_imp_iff, implies_true, and_true]
    exact ⟨hrmr plain_mnMov, hrmr plain_mnAdd, hrmr plain_mnSub, hrmr plain_mnCmp⟩
  case immediates =>
    have hrmi {mn : Text} (hmn : Plain (mn ++ [' '])) := rmiLine_eq_twoOperands mn w (.reg r) imm ▸
      plain_before_immText hmn w r imm
    simp only [List.forall_mem_cons, List.not_mem_nil, false_imp_iff, implies_true, and_true]
    exact ⟨hrmi plain_mnMov, hrmi plain_mnAdd, hrmi plain_mnSub, hrmi plain_mnCmp,
      (instrText_movRegImm w r imm).symm ▸ plain_before_immText plain_mnMov w r imm⟩
  case longest =>
    exact ⟨.addRmImm false true (.indexed 0#3 (some (.word 0x8000#16))) (.word 0x8000#16), rfl, by decide⟩

end Sys2Proof.Proofs
end

section
/-! PROOFS. One step of the block (45_decode_loop.md, 60_exceptions.md): what it does and outputs in each case, what it
reads, and what it leaves unchanged. -/

namespace Sys2Proof.Proofs

open Sys2Proof.Machine Sys2Proof.Safety Sys2Proof.Stated

/-! ### Every step answers -/

/-- Settles O27: each action performs one state update, and a meaning is a commit. -/
theorem everyStepAnswersANextState : Obligations.EveryStepAnswersANextState := by
  unfold Obligations.EveryStepAnswersANextState
  intro s
  unfold step
  cases s.action with
  | run i => exact ⟨_, exec_eq_commit i s.sampled⟩
  | _ => exact ⟨_, rfl⟩

/-- Settles O15: the step commits the instruction's line, and so does its meaning. -/
theorem stepRunsTheDecodedInstruction : Obligations.StepRunsTheDecodedInstruction := by
  unfold Obligations.StepRunsTheDecodedInstruction
  intro s i rest hs hd
  exact (step_event_of_decode_ok hs hd).1.trans (exec_eq_commit i s.sampled).symm

/-- Settles O20: when the bytes are there the decoder answers an instruction of the needed length, whose text is a
line. -/
theorem completeInstructionAdvancesByItsLength : Obligations.CompleteInstructionAdvancesByItsLength := by
  unfold Obligations.CompleteInstructionAdvancesByItsLength
  intro s b0 hs hwf hb hfit
  have h := decode_window_answersByLength hwf hb
  generalize hd : decode s.window = d at h
  cases h with
  | truncated hmissing => omega
  | @complete i _ hlen _ =>
    rw [← hlen]
    exact ⟨instrText i, isLine_instrText i, (step_event_of_decode_ok hs hd).1⟩

/-! ### Events -/

/-- Settles O26: codes and effects are those of the definitions; the comment line is the one of `b0`. -/
theorem eventEffectsAndCodes : Obligations.EventEffectsAndCodes := by
  unfold Obligations.EventEffectsAndCodes
  intro s b0
  refine ⟨rfl, rfl, rfl, rfl, rfl, rfl, rfl, ?comment, ?codes⟩
  case comment => rw [raise_unrecognizedOpcode, commentLine_eq_hexOf, commit_eq_emits]
  case codes =>
    simp only [List.forall_mem_cons, List.not_mem_nil, false_imp_iff, implies_true, and_true]
    exact ⟨rfl, rfl, rfl⟩

/-- The host's reset has no label (log entry 8). -/
theorem event_of_resetNow {s : State} {bytes : List Byte} (hr : s.resetNow = some bytes) : s.event = none := by
  simp [State.event, State.action, hr, Action.label]

/-- A terminal phase has no label (log entry 10). -/
theorem event_of_terminal {s : State} (hr : s.resetNow = none) (hs : Terminal s) : s.event = none := by
  obtain hp | hp := hs <;> simp [State.event, State.action, hr, hp, Action.label]

/-- Settles O22: a terminal phase rests, and `io_error` ends a run that is not over. -/
theorem terminalPhasesRest : Obligations.TerminalPhasesRest := by
  unfold Obligations.TerminalPhasesRest
  intro s hr
  exact ⟨fun hs => ⟨step_of_terminal hr hs, event_of_terminal hr hs⟩, fun hp hio => (ioErrorEndsTheRun s hr hio hp).1⟩

/-- A format with a `b1` needs two bytes at least (rules R52, R122). -/
theorem neededLength_of_hasSecondByte : ∀ b0 : Byte, HasSecondByte b0 → neededLength b0 none = 2 := by decide

/-- A complete instruction of two bytes or more is a line, for the fallback row has one byte. -/
theorem event_line_of_complete {s : State} {b0 : Byte} (hs : Ready s) (hwf : s.image.wf = true)
    (hb : s.image.fetch s.cursor = some b0) (htwo : 2 ≤ neededLength b0 (s.image.fetch (s.cursor + 1)))
    (hfit : s.cursor + neededLength b0 (s.image.fetch (s.cursor + 1)) ≤ s.image.size) : s.event = some .line := by
  have h := decode_window_answersByLength hwf hb
  generalize hd : decode s.window = d at h
  cases h with
  | truncated hmissing => omega
  | @complete i _ hlen _ =>
    have hevent := (step_event_of_decode_ok hs hd).2
    cases i with
    | unrecognized b0 examined => rw [← hlen] at htwo; exact absurd htwo (Nat.not_succ_le_self 1)
    | _ => exact hevent

/-- Settles O24: the nine points, each by the lemma for its condition. -/
theorem eventPriority : Obligations.EventPriority := by
  unfold Obligations.EventPriority
  intro s hwf
  refine ⟨fun hr => ?reset, fun hr hrunning hio => ?ioError, fun hidle hp => (firstStepWritesTheHeader.1 s hidle hp).2,
    fun hs hend => ((endOfInputStep s hs hwf hend.le).1 hend).2, fun b0 hs hb => ?decoding⟩
  case reset =>
    obtain ⟨bytes, hbytes⟩ := Option.ne_none_iff_exists'.1 hr
    exact event_of_resetNow hbytes
  case ioError =>
    refine (ioErrorEndsTheRun s hr hio ?_).2
    cases hp : s.phase with
    | start => exact .inl rfl
    | awaiting => exact .inr rfl
    | exhausted => exact absurd (.inl hp) hrunning
    | faulted => exact absurd (.inr hp) hrunning
  case decoding =>
    have hfault := (truncationExactlyWhenBytesAreMissing s b0 hs hwf hb).2
    refine ⟨fun hunmatched => (unrecognizedByteStep s b0 hs hb (.inl hunmatched)).2, fun htwo hlast => hfault.2 ?_,
      fun b1 hb1 hunmapped => (unrecognizedByteStep s b0 hs hb (.inr ⟨b1, hb1, hunmapped⟩)).2, hfault.2,
      event_line_of_complete hs hwf hb⟩
    have hnone : s.image.fetch (s.cursor + 1) = none := (Memory.fetch_eq_none_iff _ hwf _).2 hlast.ge
    rw [hnone, neededLength_of_hasSecondByte b0 htwo]
    omega

/-! ### What an event label tells -/

/-- A line begins with its mnemonic. -/
theorem head?_line_ne_semicolon {mn : Text} (hmn : IsMnemonic mn) (dest src : Text) :
    (line mn dest src).head? ≠ some ';' := by
  have hfirst : ∀ mn, IsMnemonic mn → mn.head? ≠ some ';' ∧ mn ≠ [] := by
    simp only [IsMnemonic, List.forall_mem_cons]
    decide
  obtain ⟨hhead, hne⟩ := hfirst mn hmn
  obtain ⟨c, cs, rfl⟩ := List.exists_cons_of_ne_nil hne
  exact hhead

theorem head?_rmrLine_ne_semicolon {mn : Text} (hmn : IsMnemonic mn) (d w : Bool) (reg : RegIdx) (rm : RegMem) :
    (rmrLine mn d w reg rm).head? ≠ some ';' := by
  unfold rmrLine
  split
  · exact head?_line_ne_semicolon hmn _ _
  · exact head?_line_ne_semicolon hmn _ _

/-- Only the fallback row prints a comment. -/
theorem head?_instrText_ne_semicolon {i : Instr} (h : instrLabel i = .line) : (instrText i).head? ≠ some ';' := by
  cases i with
  | movRmReg d w reg rm => exact head?_rmrLine_ne_semicolon isMnemonic_mnMov d w reg rm
  | addRmReg d w reg rm => exact head?_rmrLine_ne_semicolon isMnemonic_mnAdd d w reg rm
  | subRmReg d w reg rm => exact head?_rmrLine_ne_semicolon isMnemonic_mnSub d w reg rm
  | cmpRmReg d w reg rm => exact head?_rmrLine_ne_semicolon isMnemonic_mnCmp d w reg rm
  | movRmImm w rm imm | movRegImm w reg imm => exact head?_line_ne_semicolon isMnemonic_mnMov _ _
  | movAccMem w addr | movMemAcc w addr => exact head?_line_ne_semicolon isMnemonic_mnMov _ _
  | addRmImm sx w rm imm => exact head?_line_ne_semicolon isMnemonic_mnAdd _ _
  | subRmImm sx w rm imm => exact head?_line_ne_semicolon isMnemonic_mnSub _ _
  | cmpRmImm sx w rm imm => exact head?_line_ne_semicolon isMnemonic_mnCmp _ _
  | unrecognized b0 examined => cases h

/-- An instruction labelled as a line prints an instruction's line of the grammar (rules R65, R109). -/
theorem isInsnLine_instrText {i : Instr} (h : instrLabel i = .line) : IsInsnLine (instrText i) := by
  obtain hinsn | ⟨hi, -, lo, -, htext⟩ := isLine_instrText i
  · exact hinsn
  · exact absurd (by rw [htext]; rfl) (head?_instrText_ne_semicolon h)

/-- What a step with the label did to the state. -/
def EffectOfLabel (s t : State) : Option Label → Prop
  | some .header => t = { emits s.sampled headerText 0 with phase := .awaiting }
  | some .line => ∃ text len, IsInsnLine text ∧ 2 ≤ len ∧ len ≤ 6 ∧ t = emits s.sampled text len
  | some .unrecognized => ∃ text, IsCommentLine text ∧ t = emits s.sampled text 1
  | some .endOfRun => t = { s.sampled with phase := .exhausted, cause := .endOfInput }
  | some .fault => t = { s.sampled with phase := .faulted, cause := .truncatedStream } ∨
      t = { s.sampled with phase := .faulted, cause := .ioFailure }
  | none => s.resetNow ≠ none ∨ (Terminal s ∧ t = s.sampled)

theorem effectOfLabel_commit (s : State) (i : Instr) :
    EffectOfLabel s (s.sampled.commit (instrText i) (instrLength i)) (some (instrLabel i)) := by
  have hline (h : instrLabel i = .line) :
      EffectOfLabel s (s.sampled.commit (instrText i) (instrLength i)) (some .line) :=
    ⟨instrText i, instrLength i, isInsnLine_instrText h, two_le_instrLength_of_line h, (instrLength_bounds i).2, rfl⟩
  cases i with
  | unrecognized b0 examined =>
    exact ⟨commentLine b0, ⟨_, hexDigit_mem_hexDigits _, _, hexDigit_mem_hexDigits _, rfl⟩, rfl⟩
  | _ => exact hline rfl

theorem step_effectOfLabel {s t : State} (h : step s = .next t) : EffectOfLabel s t s.event := by
  obtain ⟨bytes, hr, rfl⟩ | ⟨hr, hs, rfl⟩ | ⟨hr, hp, hio, rfl⟩ | ⟨hidle, hp, rfl⟩ | ⟨hs, hd, rfl⟩ | ⟨hs, hd, rfl⟩ |
    ⟨hs, i, rest, hd, rfl⟩ := step_cases s t h
  · rw [event_of_resetNow hr]; exact .inl (by simp [hr])
  · rw [event_of_terminal hr hs]; exact .inr ⟨hs, rfl⟩
  · rw [(ioErrorEndsTheRun s hr hio hp).2]; exact .inr rfl
  · rw [(firstStepWritesTheHeader.1 s hidle hp).2]; exact rfl
  · rw [(step_event_of_decode_endOfInput hs hd).2]; exact rfl
  · rw [(step_event_of_decode_truncated hs hd).2]; exact .inl rfl
  · rw [(step_event_of_decode_ok hs hd).2]; exact effectOfLabel_commit s i

/-- Settles O25: the label of each kind of step fixes its effect. -/
theorem eventTellsWhatTheStepDid : Obligations.EventTellsWhatTheStepDid := by
  unfold Obligations.EventTellsWhatTheStepDid
  intro s t h
  have heffect {l : Option Label} (hl : s.event = l) : EffectOfLabel s t l := hl ▸ step_effectOfLabel h
  exact ⟨fun hl => heffect hl, fun hl => heffect hl, fun hl => heffect hl, fun hl => heffect hl,
    fun hl => heffect hl, fun hl => heffect hl⟩

/-! ### What a step reads -/

/-- Images that agree on a window have the same bytes in it. -/
theorem bytesFrom_congr {m m' : Memory} {n : Nat} : ∀ {a : Nat}, (∀ k, k < n → m'.fetch (a + k) = m.fetch (a + k)) →
    m'.bytesFrom a n = m.bytesFrom a n := by
  induction n with
  | zero => exact fun _ => rfl
  | succ n ih =>
    intro a h
    have hhead : m'.fetch a = m.fetch a := h 0 (Nat.succ_pos n)
    have htail : m'.bytesFrom (a + 1) n = m.bytesFrom (a + 1) n :=
      ih fun k hk => by simpa [Nat.add_assoc, Nat.add_comm 1 k] using h (k + 1) (Nat.succ_lt_succ hk)
    rw [Memory.bytesFrom, Memory.bytesFrom, hhead, htail]

/-- What a step does depends on the image through the window only. -/
theorem action_of_window_eq {s : State} {m : Memory} (h : m.bytesFrom s.cursor Config.window = s.window) :
    { s with image := m }.action = s.action := by
  have hdecoded : { s with image := m }.decoded = s.decoded := by
    unfold State.decoded
    rw [show State.window { s with image := m } = s.window from h]
  unfold State.action
  rw [hdecoded]
  rfl

/-- Without reset, doing it neither reads nor writes the image. -/
theorem perform_with_image {a : Action} (ha : ∀ bytes, a ≠ .hostReset bytes) {s t : State} (m : Memory)
    (h : a.perform s = .next t) : a.perform { s with image := m } = .next { t with image := m } := by
  cases a with
  | hostReset bytes => exact absurd rfl (ha bytes)
  | run i =>
    obtain rfl : s.commit (instrText i) (instrLength i) = t := by simpa [Action.perform, exec_eq_commit] using h
    exact exec_eq_commit i _
  | _ =>
    obtain rfl := Host.Outcome.next.inj h
    rfl

theorem decoded_ne_hostReset (s : State) (bytes : List Byte) : s.decoded ≠ .hostReset bytes := by
  unfold State.decoded
  cases decode s.window <;> simp

theorem action_ne_hostReset {s : State} (hr : s.resetNow = none) (bytes : List Byte) : s.action ≠ .hostReset bytes := by
  unfold State.action
  rw [hr]
  cases s.phase with
  | exhausted | faulted => simp
  | start => cases s.ioErrorNow <;> simp
  | awaiting =>
    cases s.ioErrorNow with
    | true => simp
    | false => exact decoded_ne_hostReset s bytes

/-- Settles O14: the same action is performed, and performing it does not use the image. -/
theorem stepReadsOnlyTheWindow : Obligations.StepReadsOnlyTheWindow := by
  unfold Obligations.StepReadsOnlyTheWindow
  intro s m t hr hm h
  unfold step
  rw [action_of_window_eq (bytesFrom_congr hm)]
  exact perform_with_image (action_ne_hostReset hr) m h

/-! ### A placed word -/

theorem length_tableBytes (nbits w : Nat) : (tableBytes nbits w).length = Config.window := by
  unfold tableBytes
  simp only
  split <;> rfl

/-- The placed word is the window. -/
theorem window_withFetchWord (s : State) (nbits w : Nat) : (s.withFetchWord nbits w).window = tableBytes nbits w := by
  unfold State.window
  rw [← length_tableBytes nbits w]
  exact Memory.bytesFrom_putBytes _ _ _

theorem decode_tableBytes {nbits w : Nat} {i : Instr} (h : decodeTableWord nbits w = some i) :
    ∃ rest, decode (tableBytes nbits w) = .ok i rest := by
  unfold decodeTableWord at h
  cases hd : decode (tableBytes nbits w) with
  | ok i' rest =>
    obtain rfl : i' = i := by simpa [hd] using h
    exact ⟨rest, rfl⟩
  | endOfInput => simp [hd] at h
  | truncatedStream => simp [hd] at h

/-- Settles O41: the state is ready, its window is the word, and sampling changes nothing of a host that asserts
nothing. -/
theorem placedWordRunsNext : Obligations.PlacedWordRunsNext := by
  unfold Obligations.PlacedWordRunsNext
  intro s nbits w i h
  obtain ⟨rest, hd⟩ := decode_tableBytes h
  rw [← window_withFetchWord s] at hd
  exact stepRunsTheDecodedInstruction _ i rest ⟨rfl, rfl, rfl⟩ hd

/-! ### What a step leaves unchanged -/

/-- Without reset no step writes the image (rule R41). -/
theorem step_image {s t : State} (hr : s.resetNow = none) (h : step s = .next t) : t.image = s.image := by
  obtain ⟨bytes, hsome, -⟩ | ⟨-, -, rfl⟩ | ⟨-, -, -, rfl⟩ | ⟨-, -, rfl⟩ | ⟨-, -, rfl⟩ | ⟨-, -, rfl⟩ |
    ⟨-, i, -, -, rfl⟩ := step_cases s t h
  · simp [hr] at hsome
  all_goals rfl

/-- Settles O37: the image is the same. -/
theorem imageIsNeverWritten : Obligations.ImageIsNeverWritten := by
  unfold Obligations.ImageIsNeverWritten
  intro s t hr h a
  rw [step_image hr h]

/-- Settles O38: only a meaning moves the cursor, by an instruction's length, and the other steps from `Awaiting` end
the run. -/
theorem cursorMovesForward : Obligations.CursorMovesForward := by
  unfold Obligations.CursorMovesForward
  intro s t hr h
  have hsame : s.cursor ≤ s.cursor ∧ s.cursor ≤ s.cursor + 6 := ⟨le_rfl, Nat.le_add_right _ _⟩
  obtain ⟨bytes, hsome, -⟩ | ⟨-, hs, rfl⟩ | ⟨-, -, -, rfl⟩ | ⟨-, hp, rfl⟩ | ⟨-, -, rfl⟩ | ⟨-, -, rfl⟩ |
    ⟨-, i, -, -, rfl⟩ := step_cases s t h
  · simp [hr] at hsome
  · exact ⟨hsame.1, hsame.2, fun _ => .inl hs⟩
  · exact ⟨hsame.1, hsame.2, fun _ => .inl (.inr rfl)⟩
  · exact ⟨hsame.1, hsame.2, fun hawaiting => by simp [hp] at hawaiting⟩
  · exact ⟨hsame.1, hsame.2, fun _ => .inl (.inl rfl)⟩
  · exact ⟨hsame.1, hsame.2, fun _ => .inl (.inr rfl)⟩
  · obtain ⟨hpos, hmax⟩ := instrLength_bounds i
    simp only [commit_cursor, sampled_cursor]
    exact ⟨by omega, by omega, fun _ => .inr (by omega)⟩

/-! ### The character set -/

/-- The texts of the character set (rule R7). -/
abbrev InCharset (t : Text) : Prop := ∀ c ∈ t, c ∈ Config.charset

theorem inCharset_header : InCharset header := by
  have hall : (header.all fun c => Config.charset.elem c) = true := by decide
  simpa using hall

theorem inCharset_instrText (i : Instr) : InCharset (instrText i) := by
  obtain ⟨body, hbody, htext⟩ := WholeLine.instrText i
  have hnewline : '\n' ∈ Config.charset := by decide
  intro c hc
  rw [htext] at hc
  obtain hc | hc := List.mem_append.1 hc
  · exact (hbody c hc).1
  · exact List.mem_singleton.1 hc ▸ hnewline

/-- Settles O34: a step appends nothing, the header or an instruction's text, or resets the output. -/
theorem stepKeepsTheCharset : Obligations.StepKeepsTheCharset := by
  unfold Obligations.StepKeepsTheCharset
  intro s t hs h
  have happend {text : Text} (htext : InCharset text) : InCharset (s.out ++ text) := fun c hc =>
    (List.mem_append.1 hc).elim (hs c) (htext c)
  cases hr : s.resetNow with
  | some bytes =>
    obtain rfl := Host.Outcome.next.inj ((step_of_resetNow hr).symm.trans h)
    simp
  | none =>
    obtain hsame | hheader | ⟨i, hline⟩ := step_out_cases hr h
    · rwa [hsame]
    · rw [hheader]; exact happend inCharset_header
    · rw [hline]; exact happend (inCharset_instrText i)

end Sys2Proof.Proofs
end

section
/-! PROOFS. The invariant and the listing (10_state.md, 45_decode_loop.md): they hold right after reset and every step
keeps them. -/

namespace Sys2Proof.Proofs

open Sys2Proof.Machine Sys2Proof.Safety

/-! ### What is decoded lies in the image -/

section
variable {s : State} (hwf : s.image.wf = true)
include hwf

/-- The window is a piece of the image's bytes. -/
theorem window_prefix_drop : s.window <+: s.image.bytes.drop s.cursor :=
  window_of_wf s hwf ▸ List.take_prefix _ _

/-- The bytes of the image at the cursor are the encoding of the instruction decoded there. -/
theorem take_drop_of_decode_ok {i : Instr} {rest : List Byte} (hd : decode s.window = .ok i rest) :
    (s.image.bytes.drop s.cursor).take (instrLength i) = encode i := by
  obtain ⟨hi, hwindow, -⟩ := readsAs_of_decode hd
  have hprefix : encode i <+: s.image.bytes.drop s.cursor :=
    (hwindow ▸ List.prefix_append _ _).trans (window_prefix_drop hwf)
  rw [← length_encode hi]
  exact (List.prefix_iff_eq_take.1 hprefix).symm

/-- A decoded instruction ends in the image. -/
theorem cursor_add_length_le_size {i : Instr} {rest : List Byte} (hd : decode s.window = .ok i rest) :
    s.cursor + instrLength i ≤ s.image.size := by
  obtain ⟨-, -, -, hlen⟩ := encodeOfDecode _ _ _ hd
  have hwindow := (window_prefix_drop hwf).length_le
  have hpos := (instrLength_bounds i).1
  rw [List.length_drop, Memory.length_bytes] at hwindow
  omega

end

/-! ### The invariant -/

/-- A canonical image, at the start of a run. -/
theorem inv_of_start {s : State} (hwf : s.image.wf = true) (hp : s.phase = .start) (hc : s.cause = .none)
    (hfresh : Fresh s) : Inv s where
  image_wf := hwf
  cursor_le := hfresh.1 ▸ Nat.zero_le _
  cause_agrees := causeAgrees_of_running (.inl hp) hc
  start_fresh := fun _ => hfresh
  exhausted_at_end := fun h => by simp [hp] at h
  truncated_before_end := fun h => by simp [hc] at h
  header_first := fun h => absurd hp h

/-- Settles O29: both states are at the start of a run, with a canonical image. -/
theorem invariantAtReset : Obligations.InvariantAtReset := by
  unfold Obligations.InvariantAtReset
  exact ⟨inv_of_start Memory.wf_nil rfl rfl ⟨rfl, rfl⟩, fun bytes =>
    inv_of_start (Memory.wf_ofBytes bytes) rfl rfl ⟨rfl, rfl⟩⟩

theorem cause_none_of_running {s : State} (hs : Inv s) (hp : s.phase = .start ∨ s.phase = .awaiting) :
    s.cause = .none := by
  obtain ⟨hrunning, -, -⟩ := hs.cause_agrees
  exact hrunning.2 hp

/-- In `Awaiting` a run of the invariant has no cause and has its header. -/
theorem headed_of_awaiting {s : State} (hs : Inv s) (hp : s.phase = .awaiting) : s.cause = .none ∧ header <+: s.out := by
  have hc := cause_none_of_running hs (.inr hp)
  obtain hheader | ⟨hio, -⟩ := hs.header_first (by simp [hp])
  · exact ⟨hc, hheader⟩
  · simp [hc] at hio

/-- Awaiting a leading byte of a canonical image, with the header written. -/
theorem inv_of_awaiting {s : State} (hwf : s.image.wf = true) (hle : s.cursor ≤ s.image.size)
    (hp : s.phase = .awaiting) (hc : s.cause = .none) (hheader : header <+: s.out) : Inv s where
  image_wf := hwf
  cursor_le := hle
  cause_agrees := causeAgrees_of_running (.inr hp) hc
  start_fresh := fun h => by simp [hp] at h
  exhausted_at_end := fun h => by simp [hp] at h
  truncated_before_end := fun h => by simp [hc] at h
  header_first := fun _ => .inl hheader

section
variable {s : State} (hs : Inv s)
include hs

theorem inv_sampled : Inv s.sampled :=
  ⟨hs.image_wf, hs.cursor_le, hs.cause_agrees, hs.start_fresh, hs.exhausted_at_end, hs.truncated_before_end,
    hs.header_first⟩

/-- A stream failure ends a fresh run before its header, and any other run after it (rules R105, R123). -/
theorem inv_raise_ioFailure : Inv (s.raise .ioFailure) where
  image_wf := hs.image_wf
  cursor_le := hs.cursor_le
  cause_agrees := causeAgrees_raise_ioFailure s
  start_fresh := fun h => by simp at h
  exhausted_at_end := fun h => by simp at h
  truncated_before_end := fun h => by simp at h
  header_first := fun _ => by
    by_cases hp : s.phase = .start
    · exact .inr ⟨rfl, hs.start_fresh hp⟩
    · exact (hs.header_first hp).imp_right fun h => ⟨rfl, h.2⟩

theorem inv_writeHeader (hp : s.phase = .start) : Inv s.writeHeader := by
  have hc := cause_none_of_running hs (.inl hp)
  exact inv_of_awaiting hs.image_wf hs.cursor_le rfl hc (by simp [(hs.start_fresh hp).2])

/-- The clean end is at `N` (rule R117). -/
theorem inv_raise_endOfInput (hp : s.phase = .awaiting) (hend : s.image.size ≤ s.cursor) :
    Inv (s.raise .endOfInput) where
  image_wf := hs.image_wf
  cursor_le := hs.cursor_le
  cause_agrees := causeAgrees_raise_endOfInput s
  start_fresh := fun h => by simp at h
  exhausted_at_end := fun _ => le_antisymm hs.cursor_le hend
  truncated_before_end := fun h => by simp at h
  header_first := fun _ => .inl (headed_of_awaiting hs hp).2

/-- A truncated instruction begins before `N` (rule R117). -/
theorem inv_raise_truncatedStream (hp : s.phase = .awaiting) (hlt : s.cursor < s.image.size) :
    Inv (s.raise .truncatedStream) where
  image_wf := hs.image_wf
  cursor_le := hs.cursor_le
  cause_agrees := causeAgrees_raise_truncatedStream s
  start_fresh := fun h => by simp at h
  exhausted_at_end := fun h => by simp at h
  truncated_before_end := fun _ => hlt
  header_first := fun _ => .inl (headed_of_awaiting hs hp).2

theorem inv_commit (hp : s.phase = .awaiting) (text : Text) {len : Nat} (hle : s.cursor + len ≤ s.image.size) :
    Inv (s.commit text len) := by
  obtain ⟨hc, hheader⟩ := headed_of_awaiting hs hp
  exact inv_of_awaiting hs.image_wf hle hp hc (hheader.trans (List.prefix_append _ _))

end

/-- Settles O30: each kind of step keeps the invariant; the decoder's answer places the cursor in the image. -/
theorem stepKeepsTheInvariant : Obligations.StepKeepsTheInvariant := by
  unfold Obligations.StepKeepsTheInvariant
  intro s t hs h
  have hend := decode_window_eq_endOfInput_iff hs.image_wf
  have hs' := inv_sampled hs
  obtain ⟨bytes, -, rfl⟩ | ⟨-, -, rfl⟩ | ⟨-, -, -, rfl⟩ | ⟨-, hp, rfl⟩ | ⟨⟨hp, -⟩, hd, rfl⟩ |
    ⟨⟨hp, -⟩, hd, rfl⟩ | ⟨⟨hp, -⟩, i, rest, hd, rfl⟩ := step_cases s t h
  · exact inv_of_start (Memory.wf_ofBytes bytes) rfl rfl ⟨rfl, rfl⟩
  · exact hs'
  · exact inv_raise_ioFailure hs'
  · exact inv_writeHeader hs' hp
  · exact inv_raise_endOfInput hs' hp (hend.1 hd)
  · exact inv_raise_truncatedStream hs' hp (Nat.not_le.1 fun hle => by simp [hend.2 hle] at hd)
  · exact inv_commit hs' hp (instrText i) (cursor_add_length_le_size hs.image_wf hd)

/-! ### The listing -/

/-- Settles O31: both states are at the start of a run, with an empty output. -/
theorem listingAtReset : Obligations.ListingAtReset := by
  unfold Obligations.ListingAtReset
  exact ⟨.inl ⟨rfl, rfl, rfl⟩, fun bytes => .inl ⟨rfl, rfl, rfl⟩⟩

/-- The instruction at the end of a listing extends it. -/
theorem listed_append {m : Memory} {c : Nat} {i : Instr} {rest : List Byte}
    (hd : decode (m.bytesFrom c Config.window) = .ok i rest) :
    ∀ {is : List Instr} {a : Nat}, Listed m a is c → Listed m a (is ++ [i]) (c + instrLength i) := by
  intro is
  induction is with
  | nil => rintro a rfl; exact ⟨⟨rest, hd⟩, rfl⟩
  | cons j js ih => exact fun h => ⟨h.1, ih h.2⟩

/-- Running the instruction at the cursor extends the account by it (rules R109, R113). -/
theorem accounted_commit {s : State} (hwf : s.image.wf = true) (hs : Accounted s) {i : Instr} {rest : List Byte}
    (hd : decode s.window = .ok i rest) : Accounted (s.commit (instrText i) (instrLength i)) := by
  obtain ⟨is, hlisted, hbytes, hout⟩ := hs
  refine ⟨is ++ [i], listed_append hd hlisted, ?_, ?_⟩
  · rw [commit_image, commit_cursor, List.take_add, take_drop_of_decode_ok hwf hd, ← hbytes]
    simp
  · rw [commit_out, hout]
    simp

/-- Nothing is listed right after the header. -/
theorem accounted_writeHeader {s : State} (hs : Fresh s) : Accounted s.writeHeader := by
  obtain ⟨hcursor, hout⟩ := hs
  exact ⟨[], hcursor.symm, by simp [hcursor], by simp [hout]⟩

theorem fresh_of_start {s : State} (hs : Listing s) (hp : s.phase = .start) : Fresh s := by
  obtain ⟨-, hfresh⟩ | ⟨-, hfresh⟩ | ⟨hne, -⟩ := hs
  · exact hfresh
  · exact hfresh
  · exact absurd hp hne

theorem accounted_of_awaiting {s : State} (hs : Listing s) (hp : s.phase = .awaiting) : Accounted s := by
  obtain ⟨hq, -⟩ | ⟨hq, -⟩ | ⟨-, haccount⟩ := hs
  · simp [hp] at hq
  · simp [hp] at hq
  · exact haccount

/-- A stream failure keeps what was listed (rule R123). -/
theorem listing_raise_ioFailure {s : State} (hs : Listing s) : Listing (s.raise .ioFailure) := by
  obtain ⟨-, hfresh⟩ | ⟨-, hfresh⟩ | ⟨-, haccount⟩ := hs
  · exact .inr (.inl ⟨rfl, hfresh⟩)
  · exact .inr (.inl ⟨rfl, hfresh⟩)
  · exact .inr (.inr ⟨by simp, haccount⟩)

/-- Settles O32: the header starts the listing, a meaning extends it by its instruction, and the ends of a run keep
it. -/
theorem stepKeepsTheListing : Obligations.StepKeepsTheListing := by
  unfold Obligations.StepKeepsTheListing
  intro s t hwf hs h
  have hs' : Listing s.sampled := hs
  have haccount : s.phase = .awaiting → Accounted s := accounted_of_awaiting hs
  obtain ⟨bytes, -, rfl⟩ | ⟨-, -, rfl⟩ | ⟨-, -, -, rfl⟩ | ⟨-, hp, rfl⟩ | ⟨⟨hp, -⟩, -, rfl⟩ |
    ⟨⟨hp, -⟩, -, rfl⟩ | ⟨⟨hp, -⟩, i, rest, hd, rfl⟩ := step_cases s t h
  · exact .inl ⟨rfl, rfl, rfl⟩
  · exact hs'
  · exact listing_raise_ioFailure hs'
  · exact .inr (.inr ⟨by simp, accounted_writeHeader (fresh_of_start hs' hp)⟩)
  · exact .inr (.inr ⟨by simp, haccount hp⟩)
  · exact .inr (.inr ⟨by simp, haccount hp⟩)
  · exact .inr (.inr ⟨by simp [hp], accounted_commit hwf (haccount hp) hd⟩)

end Sys2Proof.Proofs
end

section
/-! PROOFS. Whole runs (45_decode_loop.md section 4): from reset with an idle host every run ends, and how it ends. -/

namespace Sys2Proof.Proofs

open Sys2Proof.Machine Sys2Proof.Safety

/-! ### Runs of an idle host -/

/-- What holds along a run of the image `bytes` while the host asserts nothing: the image stays, the invariant and the
listing hold, no stream failure is the cause, and a truncation is one of the instruction at the cursor. -/
structure RunOf (bytes : List Byte) (s : State) : Prop where
  image_eq : s.image = Memory.ofBytes bytes
  host_nil : s.host = []
  inv : Inv s
  listing : Listing s
  cause_ne : s.cause ≠ .ioFailure
  truncated_at_cursor : s.cause = .truncatedStream → decode s.window = .truncatedStream

theorem runOf_runStart (bytes : List Byte) : RunOf bytes (runStart bytes) where
  image_eq := rfl
  host_nil := rfl
  inv := invariantAtReset.2 bytes
  listing := listingAtReset.2 bytes
  cause_ne := Cause.noConfusion
  truncated_at_cursor := Cause.noConfusion

section
variable {bytes : List Byte} {s : State} (hs : RunOf bytes s)
include hs

theorem idle_of_runOf : HostIdle s := ⟨resetNow_of_host_nil s hs.host_nil, ioErrorNow_of_host_nil s hs.host_nil⟩

theorem size_of_runOf : s.image.size = bytes.length := by rw [hs.image_eq, Memory.size_ofBytes]

/-- A state that is over in neither way decodes, once the header is written. -/
theorem ready_of_not_terminal (hstart : s.phase ≠ .start) (hover : ¬ Terminal s) : Ready s := by
  refine ⟨?_, idle_of_runOf hs⟩
  cases hp : s.phase with
  | start => exact absurd hp hstart
  | awaiting => rfl
  | exhausted => exact absurd (.inl hp) hover
  | faulted => exact absurd (.inr hp) hover

/-- A step that is not the host's reset or a stream failure leads to the cause that is there already, to the clean end,
or to the truncation of the instruction at the cursor. -/
theorem step_cause {t : State} (h : step s = .next t) : t.cause ≠ .ioFailure ∧
    (t.cause = .truncatedStream → decode t.window = .truncatedStream) := by
  obtain ⟨hr, hio⟩ := idle_of_runOf hs
  have hnone (hp : s.phase = .start ∨ s.phase = .awaiting) : s.cause = .none := cause_none_of_running hs.inv hp
  obtain ⟨bytes, hsome, -⟩ | ⟨-, -, rfl⟩ | ⟨-, -, herror, -⟩ | ⟨-, hp, rfl⟩ | ⟨-, -, rfl⟩ | ⟨-, hd, rfl⟩ |
    ⟨⟨hp, -⟩, i, -, -, rfl⟩ := step_cases s t h
  · simp [hr] at hsome
  · exact ⟨hs.cause_ne, hs.truncated_at_cursor⟩
  · simp [hio] at herror
  · simp [hnone (.inl hp)]
  · simp
  · exact ⟨by simp, fun _ => hd⟩
  · simp [hnone (.inr hp)]

end

/-- A step consumes one entry of the host's inputs. -/
theorem step_host {s t : State} (h : step s = .next t) : t.host = s.host.tail := by
  obtain ⟨bytes, -, rfl⟩ | ⟨-, -, rfl⟩ | ⟨-, -, -, rfl⟩ | ⟨-, -, rfl⟩ | ⟨-, -, rfl⟩ | ⟨-, -, rfl⟩ |
    ⟨-, i, -, -, rfl⟩ := step_cases s t h
  all_goals rfl

theorem step_keeps_runOf {bytes : List Byte} {s t : State} (hs : RunOf bytes s) (h : step s = .next t) :
    RunOf bytes t := by
  obtain ⟨hcause, htruncated⟩ := step_cause hs h
  exact {
    image_eq := (step_image (idle_of_runOf hs).1 h).trans hs.image_eq
    host_nil := by rw [step_host h, hs.host_nil]; rfl
    inv := stepKeepsTheInvariant s t hs.inv h
    listing := stepKeepsTheListing s t hs.inv.image_wf hs.listing h
    cause_ne := hcause
    truncated_at_cursor := htruncated }

theorem run_keeps_runOf {bytes : List Byte} : ∀ (k : Nat) {s t : State}, RunOf bytes s → core.run k s = .next t →
    RunOf bytes t := by
  intro k
  induction k with
  | zero =>
    intro s t hs h
    obtain rfl : s = t := Host.Outcome.next.inj h
    exact hs
  | succ k ih =>
    intro s t hs h
    obtain ⟨s', hstep⟩ := everyStepAnswersANextState s
    exact ih (step_keeps_runOf hs hstep) ((run_succ k s s' hstep).symm.trans h)

/-! ### Every run ends -/

/-- With `n` bytes left at most, a run that decodes is over after `n + 1` steps at most: each step that does not end it
consumes a byte. -/
theorem run_terminates {bytes : List Byte} : ∀ (n : Nat) {s : State}, RunOf bytes s → Ready s →
    s.image.size ≤ s.cursor + n → ∃ k ≤ n + 1, ∃ t, core.run k s = .next t ∧ Terminal t := by
  intro n
  induction n with
  | zero =>
    intro s hs hready hleft
    have hend := (decode_window_eq_endOfInput_iff hs.inv.image_wf).2 hleft
    have hstep := (step_event_of_decode_endOfInput hready hend).1
    exact ⟨1, le_rfl, _, run_succ 0 _ _ hstep, .inl rfl⟩
  | succ n ih =>
    intro s hs hready hleft
    obtain ⟨t, hstep⟩ := everyStepAnswersANextState s
    by_cases hover : Terminal t
    · exact ⟨1, Nat.le_add_left _ _, t, run_succ 0 s t hstep, hover⟩
    obtain ⟨hp, hr, -⟩ := hready
    obtain ⟨-, -, hprogress⟩ := cursorMovesForward s t hr hstep
    have hmoved : s.cursor < t.cursor := (hprogress hp).resolve_left hover
    have ht := step_keeps_runOf hs hstep
    have hleft' : t.image.size ≤ t.cursor + n := by rw [step_image hr hstep]; omega
    obtain ⟨k, hk, u, hrun, hu⟩ := ih ht (ready_of_not_terminal ht (step_phase_ne_start hr hstep) hover) hleft'
    exact ⟨k + 1, Nat.succ_le_succ hk, u, (run_succ k s t hstep).trans hrun, hu⟩

/-- Settles O39: one step for the header, one for each byte at most, and one for the end. -/
theorem everyRunEndsWithinItsBound : Obligations.EveryRunEndsWithinItsBound := by
  unfold Obligations.EveryRunEndsWithinItsBound
  intro bytes
  have hs := runOf_runStart bytes
  have hidle := idle_of_runOf hs
  have hstep := (firstStepWritesTheHeader.1 _ hidle rfl).1
  have ht := step_keeps_runOf hs hstep
  obtain ⟨k, hk, t, hrun, hover⟩ := run_terminates bytes.length ht ⟨rfl, idle_of_runOf ht⟩
    ((size_of_runOf ht).le.trans (Nat.le_add_left _ _))
  exact ⟨k + 1, Nat.succ_le_succ hk, t, (run_succ k _ _ hstep).trans hrun, hover⟩

/-! ### How a run ends -/

/-- A run that is over has written its header and the listing. -/
theorem accounted_of_terminal {bytes : List Byte} {s : State} (hs : RunOf bytes s) (hover : Terminal s) :
    Accounted s := by
  obtain ⟨hp, -⟩ | ⟨hp, hfresh⟩ | ⟨-, haccount⟩ := hs.listing
  · simp [Terminal, hp] at hover
  · obtain hheader | ⟨hio, -⟩ := hs.inv.header_first (by simp [hp])
    · simp [hfresh.2, header] at hheader
    · exact absurd hio hs.cause_ne
  · exact haccount

/-- Settles O40: the invariant and the listing of a run, read in a terminal phase. -/
theorem runEndsAtTheEndOrAtATruncatedInstruction : Obligations.RunEndsAtTheEndOrAtATruncatedInstruction := by
  unfold Obligations.RunEndsAtTheEndOrAtATruncatedInstruction
  intro bytes k t hrun hover
  have ht := run_keeps_runOf k (runOf_runStart bytes) hrun
  have hsize := size_of_runOf ht
  have hbytes : t.image.bytes = bytes := by rw [ht.image_eq, Memory.bytes_ofBytes]
  obtain ⟨-, hclean, hfault⟩ := ht.inv.cause_agrees
  refine ⟨hbytes, accounted_of_terminal ht hover, hover.imp (fun hp => ?exhausted) fun hp => ?faulted⟩
  case exhausted => exact ⟨hp, hclean.2 hp, (ht.inv.exhausted_at_end hp).trans hsize⟩
  case faulted =>
    have hc : t.cause = .truncatedStream := (hfault.2 hp).resolve_right ht.cause_ne
    have hd : decode (bytes.drop t.cursor) = .truncatedStream := by
      rw [decode_take_eq_truncated_iff, ← hbytes]
      exact window_of_wf t ht.inv.image_wf ▸ ht.truncated_at_cursor hc
    have hleft := length_lt_six_of_truncated hd
    rw [List.length_drop] at hleft
    exact ⟨hp, hc, hsize ▸ ht.inv.truncated_before_end hc, by omega, hd⟩

end Sys2Proof.Proofs
end
